-- ==== Sys2Proof/Config.lean ====
section
/-! DEFINITION. The fixed parameters of this hardware, each under its own name with the value of
00_scope.md R8. `STACK_DEPTH`, the one parameter a build may override (92_eei_decisions.md D10), has
its default here and is carried by the state (`State.stackDepth`), so that every statement about a
state covers every build. No parameter is a free value: 93_implementation_defined.md section 1 leaves
none. UNVERIFIED, unsafe (assumption 12): the spec's literals are unaudited (D18). -/

namespace Sys2Proof.Config

/-- `MEM_SIZE`: addresses 0x000-0xFFF (R8, R31). -/
@[simp] abbrev memSize : Nat := 4096

/-- `PROG_BASE`: where Load writes and where `pc` goes after it (R8, R49). -/
@[simp] abbrev progBase : Nat := 0x200

/-- `LOAD_MAX` = `MEM_SIZE - PROG_BASE` (R8, R50). -/
@[simp] abbrev loadMax : Nat := memSize - progBase

/-- `NUM_V`: the general registers, the size of `State.v` and of `RegIdx` (R8, R20). The 4-bit index fields
of R61 name exactly these, so the decoder compiles only while they do. -/
@[simp] abbrev numV : Nat := 16

/-- `V_WIDTH`: bits of a general register, the width of `RegVal` (R8, R20). -/
@[simp] abbrev vWidth : Nat := 8

/-- `PC_WIDTH`: bits of `pc`, the width of `PcVal` (R8, R23). -/
@[simp] abbrev pcWidth : Nat := 16

/-- `IX_WIDTH`: bits of `ix`, the width of `IxVal` (R8, R25). -/
@[simp] abbrev ixWidth : Nat := 16

/-- `STACK_ENTRY_WIDTH`: bits of a return address, the width of `StackVal` (R8, R27). -/
@[simp] abbrev stackEntryWidth : Nat := 16

/-- `STACK_DEPTH`: unbounded by default (R8, R28). -/
@[simp] abbrev stackDepth : Option Nat := none

/-- `INSN_BYTES`: the one instruction length, what the PC incrementer adds (R8, R60). -/
@[simp] abbrev insnBytes : Nat := 2

/-- `SPRITE_ROW_PIXELS`: booleans of a sprite row, the size of `Row` (R8, R142). -/
@[simp] abbrev spriteRowPixels : Nat := 8

/-- `SPRITE_MAX_ROWS`: the height field is 0..15, the bound of `RowCount` (R8, R63). The 4-bit field
`N` of R61 holds exactly these, so the decoder compiles only while it does. -/
@[simp] abbrev spriteMaxRows : Nat := 15

/-- `PC_RESET` (R8, R33): the spec's own choice D14. -/
@[simp] abbrev pcReset : Nat := 0x200

end Sys2Proof.Config
end

