-- ==== Sys2Proof/Word.lean ====
section
/-! DEFINITION. The value types (00_scope.md R10): every value is an unsigned integer of stated width. A
size or width that R8 makes a parameter is read from Config here, and nowhere written as a number, so
that a corrected literal changes one field. `Byte`, `Word` and `Addr12` are no parameters of R8: a
memory byte, an instruction word and the `NNN` field have the widths of 10_state.md R31 and
30_encoding.md R60 and R61. -/

namespace Sys2Proof

/-- `UInt8`: a byte of memory (10_state.md R31) or an immediate `NN` (30_encoding.md R61). -/
abbrev Byte := BitVec 8

/-- The instruction word (30_encoding.md R60). -/
abbrev Word := BitVec 16

/-- `UInt12` (40_fetch_step.md R88): the `NNN` field (30_encoding.md R61). -/
abbrev Addr12 := BitVec 12

/-- The value of a general register, `V_WIDTH` bits (10_state.md R20). -/
abbrev RegVal := BitVec Config.vWidth

/-- The value of `pc`, `PC_WIDTH` bits (10_state.md R23). -/
abbrev PcVal := BitVec Config.pcWidth

/-- The value of `ix`, `IX_WIDTH` bits (10_state.md R25). -/
abbrev IxVal := BitVec Config.ixWidth

/-- A return address on the call stack, `STACK_ENTRY_WIDTH` bits (10_state.md R27). -/
abbrev StackVal := BitVec Config.stackEntryWidth

/-- A register index `X` or `Y`, below `NUM_V`: every value names a register (10_state.md R20). -/
abbrev RegIdx := Fin Config.numV

/-- A row count `N`, 0..`SPRITE_MAX_ROWS` (30_encoding.md R63). -/
abbrev RowCount := Fin (Config.spriteMaxRows + 1)

/-- A sprite row: `SPRITE_ROW_PIXELS` booleans, the leftmost pixel first (43_display.md R142). -/
abbrev Row := Vector Bool Config.spriteRowPixels

end Sys2Proof
end

