-- ==== Sys2Proof/Syntax.lean ====
section
/-! DEFINITION. The Instruction type: a closed sum of exactly eight constructors, one for each row of
spec/opcode_table.json, with the operand types of 40_fetch_step.md R88. An operand's range is its
type (`UInt12` is `BitVec 12`), so no operand is out of range. -/

namespace Sys2Proof

inductive Instr where
  /-- `CLS` (43_display.md R140). -/
  | clearScreen
  /-- `JP nnn` (42_control_flow.md R121). -/
  | jump (addr : Addr12)
  /-- `CALL nnn` (42_control_flow.md R122). -/
  | callSubroutine (addr : Addr12)
  /-- `LD Vx, nn` (41_register_immediate.md R100). -/
  | setRegisterImmediate (x : RegIdx) (nn : Byte)
  /-- `ADD Vx, nn` (41_register_immediate.md R101). -/
  | addImmediateToRegister (x : RegIdx) (nn : Byte)
  /-- `LD I, nnn` (41_register_immediate.md R102). -/
  | setIndexImmediate (nnn : Addr12)
  /-- `DRW Vx, Vy, n` (43_display.md R141). -/
  | drawSprite (x y : RegIdx) (n : RowCount)
  /-- `RET`: no word encodes it (30_encoding.md R68); the executor keeps its arm (42_control_flow.md R123). -/
  | returnFromSubroutine
deriving DecidableEq, Repr

end Sys2Proof
end

