-- ==== Sys2Proof/WellFormed.lean ====
section
/-! DEFINITION. Which instructions a program in memory can hold. The operand ranges of
40_fetch_step.md R88 are the operand types, so the one check left is that the instruction has an
encoding at all: ReturnFromSubroutine has none (30_encoding.md R68). It is still an Instruction with
a meaning, reached by injecting it into execute (42_control_flow.md R123). -/

namespace Sys2Proof

/-- The instruction has an encoding (30_encoding.md R64, R68). -/
def Instr.wellFormed : Instr → Bool
  | .clearScreen => true
  | .jump _ => true
  | .callSubroutine _ => true
  | .setRegisterImmediate _ _ => true
  | .addImmediateToRegister _ _ => true
  | .setIndexImmediate _ => true
  | .drawSprite _ _ _ => true
  | .returnFromSubroutine => false

end Sys2Proof
end

