-- ==== Sys2Proof/Decode.lean ====
section
/-! DEFINITION. The opcode decoder (30_encoding.md R60-R68), its encoder, and the two ways a fetched
word can name no instruction. -/

namespace Sys2Proof

/-- A decode failure, carried by the trace output (60_exceptions.md R160, codes 1 and 2). -/
inductive DecodeFailure where
  /-- Raised by `decode` on a word that names no instruction; records the word (R66). -/
  | unknownOpcode (w : Word)
  /-- Raised by the fetch when `a + 1 >= MEM_SIZE`; records the fetch address (20_memory.md R43). -/
  | fetchOutOfRange (a : PcVal)
deriving DecidableEq, Repr

/-- Two bytes as a big-endian word, `(zext_16(hi) << 8) | zext_16(lo)` (20_memory.md R43, R44). -/
def joinBytes (hi lo : Byte) : Word :=
  (hi.zeroExtend 16 <<< 8) ||| lo.zeroExtend 16

/-- `op` = `w[15:12]` (30_encoding.md R61). -/
def fieldOp (w : Word) : BitVec 4 := w.extractLsb' 12 4

/-- `X` = `w[11:8]` (R61). -/
def fieldX (w : Word) : RegIdx := (w.extractLsb' 8 4).toFin

/-- `Y` = `w[7:4]` (R61). -/
def fieldY (w : Word) : RegIdx := (w.extractLsb' 4 4).toFin

/-- `N` = `w[3:0]` (R61). -/
def fieldN (w : Word) : RowCount := (w.extractLsb' 0 4).toFin

/-- `NN` = `w[7:0]` (R61). -/
def fieldNN (w : Word) : Byte := w.extractLsb' 0 8

/-- `NNN` = `w[11:0]` (R61). -/
def fieldNNN (w : Word) : Addr12 := w.extractLsb' 0 12

/-- The decoder: total on every 16-bit word, reading nothing but the word (R64, R65). -/
def decode (w : Word) : Except DecodeFailure Instr :=
  if w = 0x00E0#16 then .ok .clearScreen
  else if fieldOp w = 0x1#4 then .ok (.jump (fieldNNN w))
  else if fieldOp w = 0x2#4 then .ok (.callSubroutine (fieldNNN w))
  else if fieldOp w = 0x6#4 then .ok (.setRegisterImmediate (fieldX w) (fieldNN w))
  else if fieldOp w = 0x7#4 then .ok (.addImmediateToRegister (fieldX w) (fieldNN w))
  else if fieldOp w = 0xA#4 then .ok (.setIndexImmediate (fieldNNN w))
  else if fieldOp w = 0xD#4 then .ok (.drawSprite (fieldX w) (fieldY w) (fieldN w))
  else .error (.unknownOpcode w)

/-- Format `F_NNN`: `oooo nnnn nnnn nnnn` (R62). -/
def packNNN (op : BitVec 4) (nnn : Addr12) : Word := op ++ nnn

/-- Format `F_XNN`: `oooo xxxx kkkk kkkk` (R62). -/
def packXNN (op : BitVec 4) (x : RegIdx) (nn : Byte) : Word := op ++ (BitVec.ofFin x : BitVec 4) ++ nn

/-- Format `F_XYN`: `oooo xxxx yyyy nnnn` (R62). -/
def packXYN (op : BitVec 4) (x y : RegIdx) (n : RowCount) : Word :=
  op ++ (BitVec.ofFin x : BitVec 4) ++ (BitVec.ofFin y : BitVec 4) ++ (BitVec.ofFin n : BitVec 4)

/-- The word of an instruction, from the table of R64; none where there is no encoding (R68). -/
def encode : Instr → Option Word
  | .clearScreen => some 0x00E0#16
  | .jump addr => some (packNNN 0x1#4 addr)
  | .callSubroutine addr => some (packNNN 0x2#4 addr)
  | .setRegisterImmediate x nn => some (packXNN 0x6#4 x nn)
  | .addImmediateToRegister x nn => some (packXNN 0x7#4 x nn)
  | .setIndexImmediate nnn => some (packNNN 0xA#4 nnn)
  | .drawSprite x y n => some (packXYN 0xD#4 x y n)
  | .returnFromSubroutine => none

/-- The (mask, match) pairs of R64's table, in its order. -/
def opcodeRows : List (Word × Word) :=
  [(0xFFFF#16, 0x00E0#16), (0xF000#16, 0x1000#16), (0xF000#16, 0x2000#16), (0xF000#16, 0x6000#16),
   (0xF000#16, 0x7000#16), (0xF000#16, 0xA000#16), (0xF000#16, 0xD000#16)]

/-- The table's word `w` of `nbits` bits as the first instruction word: its bits above `nbits` are 0.
One instruction is one word (R60), so bits above 15 are no part of it. -/
def tableWord (nbits w : Nat) : Word := BitVec.ofNat 16 (w % 2 ^ nbits)

/-- The first byte a word has in memory: bits 15..8 (20_memory.md R44). -/
def highByte (w : Word) : Byte := w.extractLsb' 8 8

/-- The second byte a word has in memory: bits 7..0 (20_memory.md R44). -/
def lowByte (w : Word) : Byte := w.extractLsb' 0 8

/-- What the decoder reads from the table's word laid out in memory order. -/
def decodeTableWord (nbits w : Nat) : Option Instr :=
  match decode (joinBytes (highByte (tableWord nbits w)) (lowByte (tableWord nbits w))) with
  | .ok i => some i
  | .error _ => none

end Sys2Proof
end

