-- ==== Sys2Proof/Machine/State.lean ====
section
/-! DEFINITION. The machine's state as plain data (10_state.md R20-R34), what a step hands back
(40_fetch_step.md R86, 43_display.md R142, 60_exceptions.md R160), and the reset state (R33). -/

namespace Sys2Proof.Machine

/-- A draw request (43_display.md R142): the origin in screen pixels and the rows, top row first. -/
structure DrawAction where
  origin : RegVal × RegVal
  rows : List Row
deriving DecidableEq, Repr

/-- An execute-time error (60_exceptions.md R160, codes 3, 4 and 5; R162). -/
inductive StepError where
  /-- Raised by ReturnFromSubroutine on an empty stack (42_control_flow.md R123). -/
  | stackUnderflow
  /-- Raised by DrawSprite; records the first row address out of range (43_display.md R141). -/
  | spriteOutOfRange (addr : Nat)
  /-- Raised by CallSubroutine on a full stack of finite depth (42_control_flow.md R124). -/
  | stackOverflow
deriving DecidableEq, Repr

/-- What `step` returns to the driver (40_fetch_step.md R86). -/
inductive StepResult where
  | noEffect
  | draw (d : DrawAction)
  | error (e : StepError)
deriving DecidableEq, Repr

/-- What one step puts out: its result and at most one trace event (40_fetch_step.md R86,
60_exceptions.md R171). -/
structure StepRecord where
  result : StepResult
  trace : Option DecodeFailure
deriving DecidableEq, Repr

/-- Memory as (address, byte) pairs in one canonical form, `Memory.wf`. -/
abbrev Memory := List Host.Cell

/-- What an unlisted address reads as: the reset contents 0x00 (10_state.md R33, the spec's decision
D13). DESIGN CHOICE, unsafe (assumption 4). -/
def unlistedByte : Byte := 0x00#8

/-- The canonical form from address `lo` up: addresses strictly rising and inside the 4096 bytes, and no
entry equal to what an unlisted address reads as. -/
def Memory.wfFrom (lo : Nat) : Memory → Bool
  | [] => true
  | (a, b) :: m => decide (lo ≤ a) && decide (a < Config.memSize) && (b != unlistedByte) && wfFrom (a + 1) m

/-- The canonical form. -/
def Memory.wf (m : Memory) : Bool := Memory.wfFrom 0 m

/-- The state: the spec's tuple (R34), the build's parameter and the model's own history. -/
structure State where
  /-- V0..V15 (R20). -/
  v : Vector RegVal Config.numV
  /-- The program counter; `pc_prov` during execute (R23). -/
  pc : PcVal
  /-- The index register (R25). -/
  ix : IxVal
  /-- The call stack, most recent entry first (R27). -/
  stk : List StackVal
  /-- The 4096 bytes (R31). -/
  mem : Memory
  /-- `STACK_DEPTH` of this build (R28), which nothing writes. DESIGN CHOICE, safe (assumption 2). -/
  stackDepth : Option Nat
  /-- The records of the executions so far, newest first; the bookkeeping R34 allows, which nothing
  reads. DESIGN CHOICE, safe (assumption 1). -/
  history : List StepRecord
deriving DecidableEq, Repr

/-- The state after System construction (10_state.md R33, 70_reset_and_hazards.md R180). The values are
the spec's own decisions D12-D14. DESIGN CHOICE, unsafe (assumptions 3 and 4). -/
def State.reset : State where
  v := Vector.replicate Config.numV (BitVec.ofNat Config.vWidth 0)
  pc := BitVec.ofNat Config.pcWidth Config.pcReset
  ix := BitVec.ofNat Config.ixWidth 0
  stk := []
  mem := []
  stackDepth := Config.stackDepth
  history := []

/-- The faults of a step: none. `step` is total and never halts (40_fetch_step.md R87), and every error
is a recoverable outcome in a next state (60_exceptions.md R163), so no one raises a fault. DEDUCED, safe
(assumption 8). -/
inductive Fault where
deriving DecidableEq, Repr

/-- Why the model gives no next state. -/
inductive Refusal where
  /-- Raised by an arm of `exec` whose instruction has no meaning yet; safe: nothing is claimed of it. No
  arm of this model raises it. -/
  | notModelled (mnemonic : String)
  /-- Raised by `load` for more than `LOAD_MAX` bytes, to which the CORE gives no meaning (20_memory.md
  R50); safe: such a Load has no transition. -/
  | loadOverLimit (length : Nat)
deriving DecidableEq, Repr

end Sys2Proof.Machine
end

