-- ==== Sys2Proof/Machine/Ops.lean ====
section
/-! DEFINITION. The named operations over memory and registers (00_scope.md R11, 20_memory.md R41-R49),
and the ways one execution ends: with a result, or by raising an error (60_exceptions.md R163). -/

namespace Sys2Proof.Machine

/-- The byte at address `a`. -/
def Memory.read : Memory → Nat → Byte
  | [], _ => unlistedByte
  | (b, v) :: m, a => if a = b then v else Memory.read m a

/-- Memory with the byte at `a` set to `v`, in canonical form: a byte that an unlisted address reads as
is not listed. -/
def Memory.write : Memory → Nat → Byte → Memory
  | [], a, v => if v = unlistedByte then [] else [(a, v)]
  | (b, u) :: m, a, v =>
    if a < b then
      if v = unlistedByte then (b, u) :: m else (a, v) :: (b, u) :: m
    else if a = b then
      if v = unlistedByte then m else (a, v) :: m
    else (b, u) :: Memory.write m a v

/-- `MemWrite` over consecutive addresses from `a` up, the copy of Load (20_memory.md R49). -/
def Memory.writeBytes : Memory → Nat → List Byte → Memory
  | m, _, [] => m
  | m, a, b :: bs => Memory.writeBytes (Memory.write m a b) (a + 1) bs

/-- `MemRead(a, 1)` (R42): none out of range; addresses are never reduced modulo `MEM_SIZE` (R41). -/
def memRead (m : Memory) (a : Nat) : Option Byte :=
  if a < Config.memSize then some (m.read a) else none

/-- The instruction fetch port (R43): two byte reads, the first byte the high-order one, and nothing of
a fetch whose second byte is out of range. -/
def fetchRead (m : Memory) (a : PcVal) : Option Word :=
  match memRead m a.toNat, memRead m (a.toNat + 1) with
  | some hi, some lo => some (joinBytes hi lo)
  | _, _ => none

/-- `x[i]`. -/
def State.getV (s : State) (x : RegIdx) : RegVal := s.v.get x

/-- `x[i] <- v`. -/
def State.setV (s : State) (x : RegIdx) (b : RegVal) : State := { s with v := s.v.set x b }

/-- `pc <- target`. -/
def State.setPc (s : State) (a : PcVal) : State := { s with pc := a }

/-- `ix <- v`. -/
def State.setIx (s : State) (a : IxVal) : State := { s with ix := a }

/-- The stack replaced. -/
def State.setStk (s : State) (l : List StackVal) : State := { s with stk := l }

/-- The memory replaced. -/
def State.setMem (s : State) (m : Memory) : State := { s with mem := m }

/-- `push(v)`: the new head of the stack. -/
def State.push (s : State) (a : StackVal) : State := s.setStk (a :: s.stk)

/-- The record of one execution handed to the driver, kept newest first. -/
def State.record (s : State) (r : StepRecord) : State := { s with history := r :: s.history }

/-- The PC incrementer: `a +_16 2` (40_fetch_step.md R82). The wrap is the spec's own decision D5. DESIGN
CHOICE, unsafe (assumption 5). -/
def pcIncrement (a : PcVal) : PcVal := a + BitVec.ofNat Config.pcWidth Config.insnBytes

/-- The provisional advance, `pc <- a +_16 2` (R82). -/
def State.advancePc (s : State) : State := s.setPc (pcIncrement s.pc)

/-- `STACK_DEPTH = some D and length(stk) = D` (42_control_flow.md R122, R124). DESIGN CHOICE, unsafe
(assumption 18). -/
def State.stackFull (s : State) : Bool :=
  match s.stackDepth with
  | none => false
  | some d => s.stk.length == d

/-- `return NoEffect` (40_fetch_step.md R86): no trace event (60_exceptions.md R171). -/
def finish (s : State) : Host.Outcome State Fault Refusal :=
  .next (s.record ⟨.noEffect, none⟩)

/-- `return Draw(d)` (R86). -/
def emitDraw (d : DrawAction) (s : State) : Host.Outcome State Fault Refusal :=
  .next (s.record ⟨.draw d, none⟩)

/-- `raise E`: the one way an instruction errs (60_exceptions.md R163). The writes made so far stand, none
follows, control goes nowhere, and the driver gets `Error(E)`; there is no trace event (R171). -/
def raise (e : StepError) (s : State) : Host.Outcome State Fault Refusal :=
  .next (s.record ⟨.error e, none⟩)

/-- A decode failure inside a step (40_fetch_step.md R83, R84; 60_exceptions.md R161): the failure on the
trace output, the result `NoEffect`, nothing else. -/
def decodeFailed (f : DecodeFailure) (s : State) : Host.Outcome State Fault Refusal :=
  .next (s.record ⟨.noEffect, some f⟩)

/-- The code of a decode failure in the table of 60_exceptions.md R160. -/
def decodeFailureCode : DecodeFailure → Nat
  | .unknownOpcode _ => 1
  | .fetchOutOfRange _ => 2

/-- The code of an execute-time error in the table of 60_exceptions.md R160. -/
def stepErrorCode : StepError → Nat
  | .stackUnderflow => 3
  | .spriteOutOfRange _ => 4
  | .stackOverflow => 5

end Sys2Proof.Machine
end

