-- ==== Sys2Proof/Machine/Operands.lean ====
section
/-! DEFINITION. Operand assembly (30_encoding.md R63): no operand is sign-extended, scaled or shifted. An
operand is an immediate byte used as is, a 12-bit value zero-extended, a register index, or a row count.
Each conversion goes to the width that Config gives its target. -/

namespace Sys2Proof.Machine

/-- `zext_16(NNN)` as a target address: how the field reaches `pc` (R63). -/
def zextPc (nnn : Addr12) : PcVal := nnn.zeroExtend Config.pcWidth

/-- `zext_16(NNN)` as an index: how the field reaches `ix` (R63). -/
def zextIx (nnn : Addr12) : IxVal := nnn.zeroExtend Config.ixWidth

/-- `NN` as a register value: unsigned, used as is (R63). -/
def immediate (nn : Byte) : RegVal := nn.zeroExtend Config.vWidth

/-- An address as a return address on the stack: the same value (42_control_flow.md R122). -/
def pcToEntry (a : PcVal) : StackVal := a.zeroExtend Config.stackEntryWidth

/-- A return address taken off the stack: the same value (42_control_flow.md R123). -/
def entryToPc (a : StackVal) : PcVal := a.zeroExtend Config.pcWidth

/-- The address of sprite row `r`, `ix + r` in `Nat`, so that it never wraps (20_memory.md R46). -/
def rowAddr (ix : IxVal) (r : Nat) : Nat := ix.toNat + r

/-- `expand(b)`: pixel `c` from the left is bit `7 - c` of the byte, bit 7 the leftmost (43_display.md R143).
`Sys2Proof.Machine.expand_eq` writes the eight bits out. -/
def expand (b : Byte) : Row :=
  Vector.ofFn fun c => b.getLsbD (Config.spriteRowPixels - 1 - c.val)

end Sys2Proof.Machine
end

