-- ==== Sys2Proof/Machine/ControlFlow.lean ====
section
/-! DEFINITION. The control-flow instructions (42_control_flow.md). `pc` holds `pc_prov`, which a taken
transfer overrides (R120). Targets are never checked (R125). -/

namespace Sys2Proof.Machine

/-- `JP nnn`: `pc <- zext_16(addr)` (R121). -/
def execJump (addr : Addr12) (s : State) : Host.Outcome State Fault Refusal :=
  finish (s.setPc (zextPc addr))

/-- `CALL nnn`: `push(pc_prov +_16 2)`, the call site plus 4, then `pc <- zext_16(addr)` (R122). A full
finite stack raises StackOverflow before either write (R124). -/
def execCallSubroutine (addr : Addr12) (s : State) : Host.Outcome State Fault Refusal :=
  if s.stackFull then raise .stackOverflow s
  else finish ((s.push (pcToEntry (pcIncrement s.pc))).setPc (zextPc addr))

/-- `RET`: the most recent entry goes to `pc`; an empty stack raises StackUnderflow (R123). No word
encodes it (30_encoding.md R68). -/
def execReturnFromSubroutine (s : State) : Host.Outcome State Fault Refusal :=
  match s.stk with
  | [] => raise .stackUnderflow s
  | r :: rest => finish ((s.setStk rest).setPc (entryToPc r))

end Sys2Proof.Machine
end

