-- ==== Sys2Proof/Machine/Display.lean ====
section
/-! DEFINITION. The display instructions and the sprite-draw request generator (43_display.md). The CORE
holds no screen; a draw request is only handed to the driver (R145). -/

namespace Sys2Proof.Machine

/-- `CLS`: no state change and no draw request (R140). -/
def execClearScreen (s : State) : Host.Outcome State Fault Refusal :=
  finish s

/-- Rows `r .. r + k - 1` of the sprite at `ix`, read in ascending order; or the first row address that
is out of range (R141, 20_memory.md R46). All or nothing is the spec's decision D8. DESIGN CHOICE,
unsafe (assumption 7). -/
def readRows (m : Memory) (ix : IxVal) : Nat → Nat → Except Nat (List Row)
  | _, 0 => .ok []
  | r, k + 1 =>
    match memRead m (rowAddr ix r) with
    | none => .error (rowAddr ix r)
    | some b =>
      match readRows m ix (r + 1) k with
      | .error a => .error a
      | .ok rows => .ok (expand b :: rows)

/-- `DRW Vx, Vy, n`: a DrawAction with origin (VX, VY) and `n` rows from `ix` up, or
`SpriteOutOfRange` and no DrawAction (R141, R142). No XOR, no collision flag, no clipping (R144). -/
def execDrawSprite (x y : RegIdx) (n : RowCount) (s : State) : Host.Outcome State Fault Refusal :=
  match readRows s.mem s.ix 0 n.val with
  | .error a => raise (.spriteOutOfRange a) s
  | .ok rows => emitDraw ⟨(s.getV x, s.getV y), rows⟩ s

end Sys2Proof.Machine
end

