-- ==== Sys2Proof/Machine/Flags.lean ====
section
/-! DEFINITION. The CORE has no flags (10_state.md R29): no result sets a carry, a zero, an overflow or a
collision, and V15 is an ordinary register (R22). What is left of flag computation is the one addition,
whose carry out of bit 7 no register records (41_register_immediate.md R101). -/

namespace Sys2Proof.Machine

/-- `a +_8 b`: `(a + b) mod 256`, the carry out of the top bit discarded (R101, 00_scope.md R10). -/
def addReg (a b : RegVal) : RegVal := a + b

end Sys2Proof.Machine
end

