-- ==== Sys2Proof/Machine/RegisterImmediate.lean ====
section
/-! DEFINITION. The instructions that write an immediate into the register file
(41_register_immediate.md). `pc` already holds `pc_prov`, and each leaves it there. -/

namespace Sys2Proof.Machine

/-- `LD Vx, nn`: `x[x] <- nn` (R100). -/
def execSetRegisterImmediate (x : RegIdx) (nn : Byte) (s : State) : Host.Outcome State Fault Refusal :=
  finish (s.setV x (immediate nn))

/-- `ADD Vx, nn`: `x[x] <- x[x] +_8 nn` (R101). -/
def execAddImmediateToRegister (x : RegIdx) (nn : Byte) (s : State) : Host.Outcome State Fault Refusal :=
  finish (s.setV x (addReg (s.getV x) (immediate nn)))

/-- `LD I, nnn`: `ix <- zext_16(nnn)` (R102). -/
def execSetIndexImmediate (nnn : Addr12) (s : State) : Host.Outcome State Fault Refusal :=
  finish (s.setIx (zextIx nnn))

end Sys2Proof.Machine
end

