-- ==== Sys2Proof/Machine/Dispatch.lean ====
section
/-! DEFINITION. Execute (40_fetch_step.md R85): the one arm that matches the decoded instruction, with
`pc` = `pc_prov`. -/

namespace Sys2Proof.Machine

def exec (i : Instr) (s : State) : Host.Outcome State Fault Refusal :=
  match i with
  | .clearScreen => Sys2Proof.Machine.execClearScreen s
  | .jump addr => Sys2Proof.Machine.execJump addr s
  | .callSubroutine addr => Sys2Proof.Machine.execCallSubroutine addr s
  | .setRegisterImmediate x nn => Sys2Proof.Machine.execSetRegisterImmediate x nn s
  | .addImmediateToRegister x nn => Sys2Proof.Machine.execAddImmediateToRegister x nn s
  | .setIndexImmediate nnn => Sys2Proof.Machine.execSetIndexImmediate nnn s
  | .drawSprite x y n => Sys2Proof.Machine.execDrawSprite x y n s
  | .returnFromSubroutine => Sys2Proof.Machine.execReturnFromSubroutine s

end Sys2Proof.Machine
end

