-- ==== Sys2Proof/Machine/Load.lean ====
section
/-! DEFINITION. The host's Load operation (20_memory.md R49, R50). -/

namespace Sys2Proof.Machine

/-- `load(b)`: the bytes copied verbatim from 0x200 up and `pc <- PROG_BASE`, everything else kept (R49,
the spec's decision D15; DESIGN CHOICE, unsafe, assumption 10). More than `LOAD_MAX` bytes is out of
contract and refused (R50, D16; DESIGN CHOICE, safe, assumption 9). -/
def load (bs : List Byte) (s : State) : Host.Outcome State Fault Refusal :=
  if bs.length ≤ Config.loadMax then
    .next ((s.setMem (s.mem.writeBytes Config.progBase bs)).setPc (BitVec.ofNat Config.pcWidth Config.progBase))
  else .refused (.loadOverLimit bs.length)

/-- Where a word can be stored for the next fetch: at `pc` when both bytes are in range there, else at
`PROG_BASE`, where a Load would put it. -/
def fetchSlot (s : State) : PcVal :=
  if s.pc.toNat + 1 < Config.memSize then s.pc else BitVec.ofNat Config.pcWidth Config.progBase

/-- The word's two bytes stored in memory order at `fetchSlot`, and `pc` there. -/
def placeWord (s : State) (w : Word) : State :=
  (s.setMem (s.mem.writeBytes (fetchSlot s).toNat [highByte w, lowByte w])).setPc (fetchSlot s)

end Sys2Proof.Machine
end

