-- ==== Sys2Proof/Machine/Step.lean ====
section
/-! DEFINITION. One step (40_fetch_step.md R80): fetch at `pc`, the unconditional provisional advance,
decode, execute. -/

namespace Sys2Proof.Machine

/-- `step()` (R80). The fetch reads before `pc` changes (R81), and `pc` advances before decode (R82). -/
def step (s : State) : Host.Outcome State Fault Refusal :=
  match fetchRead s.mem s.pc with
  | none => decodeFailed (.fetchOutOfRange s.pc) s.advancePc
  | some w =>
    match decode w with
    | .error f => decodeFailed f s.advancePc
    | .ok i => exec i s.advancePc

/-- The state with the table's word where `step` fetches its next instruction. DESIGN CHOICE, safe
(assumption 15): this stands for the host's Load. -/
def State.withFetchWord (s : State) (nbits w : Nat) : State := placeWord s (tableWord nbits w)

end Sys2Proof.Machine
end

