-- ==== Sys2Proof/Machine/Driver.lean ====
section
/-! DEFINITION. The driver (70_reset_and_hazards.md R181, R183, R184): a run is a finite sequence of
Loads and steps, one at a time, in any order, after System construction. -/

namespace Sys2Proof.Machine

/-- The state after System construction of a build with the given `STACK_DEPTH` (10_state.md R28): a
finite build overrides the default and nothing else (92_eei_decisions.md D10). -/
def resetBuild (depth : Option Nat) : State := { State.reset with stackDepth := depth }

/-- What the host can do after reset (R183). Reset happens once, before a run, and is no operation of a
run (R180). -/
inductive HostOp where
  | load (bytes : List Byte)
  | step
deriving DecidableEq, Repr

/-- One host operation. -/
def hostOp (o : HostOp) (s : State) : Host.Outcome State Fault Refusal :=
  match o with
  | .load bs => load bs s
  | .step => step s

/-- A sequence of host operations from `s`, in order. A refused Load has no transition, and so ends
what can be said of the sequence (20_memory.md R50). -/
def runOps : List HostOp → State → Host.Outcome State Fault Refusal
  | [], s => .next s
  | o :: os, s =>
    match hostOp o s with
    | .next t => runOps os t
    | .fault f => .fault f
    | .refused r => .refused r

end Sys2Proof.Machine
end

