-- ==== Sys2Proof/Safety.lean ====
section
/-! DEFINITION. The terms in which claims are made: the formats of the instruction words as arithmetic,
what two states share, the invariant, clean runs, and the spec's own state tuple (10_state.md R34) as a
second reading of the step, in exact `Nat` arithmetic over total functions. The numbers here and in the
statements are written as the rules write them, so that what is proved holds Config to the spec. -/

namespace Sys2Proof.Machine

/-! ### Instruction words as numbers (30_encoding.md R61, R62) -/

/-- `w` is `op` followed by `NNN` (format `F_NNN`). -/
def FormatNNN (op : Nat) (w : Word) (nnn : Addr12) : Prop := w.toNat = op * 4096 + nnn.toNat

/-- `w` is `op`, `X`, `NN` (format `F_XNN`). -/
def FormatXNN (op : Nat) (w : Word) (x : RegIdx) (nn : Byte) : Prop :=
  w.toNat = op * 4096 + x.val * 256 + nn.toNat

/-- `w` is `op`, `X`, `Y`, `N` (format `F_XYN`). -/
def FormatXYN (op : Nat) (w : Word) (x y : RegIdx) (n : RowCount) : Prop :=
  w.toNat = op * 4096 + x.val * 256 + y.val * 16 + n.val

/-- The word is illegal: no instruction's (R66). -/
def IllegalWord (w : Word) : Prop := w.toNat ≠ 0x00E0 ∧ w.toNat / 4096 ∉ [0x1, 0x2, 0x6, 0x7, 0xA, 0xD]

/-! ### What two states share -/

/-- Every general register but `x` is the same. -/
def SameRegsBut (x : RegIdx) (s t : State) : Prop := ∀ y, y ≠ x → t.getV y = s.getV y

/-- Every general register is the same. -/
def SameRegs (s t : State) : Prop := ∀ y, t.getV y = s.getV y

/-- Every byte of memory reads the same. -/
def SameMem (s t : State) : Prop := ∀ a, t.mem.read a = s.mem.read a

/-- `t` comes after `s` by exactly one execution, which put out `r` (40_fetch_step.md R86). -/
def PutOut (s t : State) (r : StepRecord) : Prop := t.history = r :: s.history

/-- The record of an execution that returns `NoEffect` and traces nothing. -/
def quiet : StepRecord := ⟨.noEffect, none⟩

/-- The step errs: it returns `Error` or traces a decode failure (60_exceptions.md R160). -/
def StepRecord.errs (r : StepRecord) : Prop := r.trace ≠ none ∨ ∃ e, r.result = .error e

/-- A clean run: no error recorded (93_implementation_defined.md U3). -/
def State.Clean (s : State) : Prop := ∀ r ∈ s.history, ¬ r.errs

/-! ### The invariant -/

/-- What every step and every Load keep: the memory's canonical form; `ix <= 0xFFF` (10_state.md R26); a
finite stack never above its depth (R34); no return address above 0x1002 (42_control_flow.md R122). -/
structure State.Inv (s : State) : Prop where
  mem_wf : s.mem.wf = true
  ix_le : s.ix.toNat ≤ 0xFFF
  depth_le : ∀ d, s.stackDepth = some d → s.stk.length ≤ d
  entry_le : ∀ a ∈ s.stk, a.toNat ≤ 0x1002

/-! ### What an address holds after a sequence of host operations (20_memory.md R54) -/

/-- The byte a Load of `bs` puts at address `a`, if it covers `a` (R49). -/
def loadCovers (bs : List Byte) (a : Nat) : Option Byte :=
  if a < 0x200 then none else bs[a - 0x200]?

/-- The byte that the latest Load covering `a` put there, or `old` if none did. -/
def latestLoad : List HostOp → Nat → Byte → Byte
  | [], _, old => old
  | .load bs :: os, a, old => latestLoad os a ((loadCovers bs a).getD old)
  | .step :: os, a, old => latestLoad os a old

/-! ### The spec's tuple S = (V, pc, ix, stk, M) as numbers (10_state.md R34) -/

/-- The state as the spec writes it. Every value is an unsigned integer (00_scope.md R10). -/
structure Tuple where
  v : Nat → Nat
  pc : Nat
  ix : Nat
  stk : List Nat
  m : Nat → Nat

/-- The tuple of a state. -/
def Tuple.ofState (s : State) : Tuple where
  v := fun i => if h : i < 16 then (s.getV ⟨i, h⟩).toNat else 0
  pc := s.pc.toNat
  ix := s.ix.toNat
  stk := s.stk.map BitVec.toNat
  m := fun a => (s.mem.read a).toNat

/-- Bit 7 - c of `b` for the eight pixels `c` of a row (43_display.md R143). -/
def rowOfNat (b : Nat) : Row := Vector.ofFn fun c => decide (b / 2 ^ (7 - c.val) % 2 = 1)

/-- Execute of the word `w` with `pc` = `pc_prov`, read off the rules R64, R100-R102, R121, R122, R124,
R140-R143 in `Nat`: the tuple afterwards and what the step puts out. -/
def Tuple.execute (depth : Option Nat) (w : Nat) (t : Tuple) : Tuple × StepRecord :=
  let x := w / 256 % 16
  let y := w / 16 % 16
  let n := w % 16
  if w = 0x00E0 then (t, quiet)
  else if w / 4096 = 0x1 then ({ t with pc := w % 4096 }, quiet)
  else if w / 4096 = 0x2 then
    if depth = some t.stk.length then (t, ⟨.error .stackOverflow, none⟩)
    else ({ t with stk := (t.pc + 2) % 65536 :: t.stk, pc := w % 4096 }, quiet)
  else if w / 4096 = 0x6 then ({ t with v := fun i => if i = x then w % 256 else t.v i }, quiet)
  else if w / 4096 = 0x7 then
    ({ t with v := fun i => if i = x then (t.v x + w % 256) % 256 else t.v i }, quiet)
  else if w / 4096 = 0xA then ({ t with ix := w % 4096 }, quiet)
  else if w / 4096 = 0xD then
    if n = 0 ∨ t.ix + n ≤ 4096 then
      (t, ⟨.draw ⟨(BitVec.ofNat Config.vWidth (t.v x), BitVec.ofNat Config.vWidth (t.v y)),
        (List.range n).map fun r => rowOfNat (t.m (t.ix + r))⟩, none⟩)
    else (t, ⟨.error (.spriteOutOfRange (max t.ix 4096)), none⟩)
  else (t, ⟨.noEffect, some (.unknownOpcode (BitVec.ofNat 16 w))⟩)

/-- One step of the tuple (40_fetch_step.md R80-R84). -/
def Tuple.step (depth : Option Nat) (t : Tuple) : Tuple × StepRecord :=
  let t' := { t with pc := (t.pc + 2) % 65536 }
  if t.pc + 1 < 4096 then Tuple.execute depth (256 * t.m t.pc + t.m (t.pc + 1)) t'
  else (t', ⟨.noEffect, some (.fetchOutOfRange (BitVec.ofNat Config.pcWidth t.pc))⟩)

/-- Load of the tuple (20_memory.md R49). -/
def Tuple.load (bs : List Byte) (t : Tuple) : Tuple :=
  { t with pc := 0x200, m := fun a => ((loadCovers bs a).map BitVec.toNat).getD (t.m a) }

end Sys2Proof.Machine
end

