-- ==== Sys2Proof/Certificates/Slice0/Obligations.lean ====
section
/-! DEFINITION. The statements for the provers. Each docstring names the rule or section of spec/ it
formalises, and says where a clause rests on the spec's own decision (a mark D<n>) or on a choice of this
model (a log entry). In every statement about `exec`, `s.pc` is `pc_prov` (10_state.md R23). -/

open Sys2Proof Sys2Proof.Machine

/-! ### Reset -/

/-- 10_state.md section 6 and 70_reset_and_hazards.md section 1. The values are the spec's own decisions
D12, D13 and D14 (assumptions 3 and 4); `stackDepth` is the default of R8 and the empty history is the
model's choice (assumptions 1 and 2). -/
def Obligations.ResetHoldsTheDecidedValues : Prop :=
  (∀ x, State.reset.getV x = 0x00#8) ∧ State.reset.pc.toNat = 0x200 ∧ State.reset.ix.toNat = 0 ∧
    State.reset.stk = [] ∧ (∀ a, State.reset.mem.read a = 0x00#8) ∧ State.reset.stackDepth = none ∧
    State.reset.history = []

/-- 70_reset_and_hazards.md section 1 (a step before any Load), which the spec derives: from reset, each
step finds the word 0x0000, traces it and advances `pc` by 2, up to the end of memory. It rests on the
decided reset values (D13, D14; assumptions 3 and 4). -/
def Obligations.UnloadedRunSkipsZeroWords : Prop :=
  ∀ k, 0x200 + 2 * k ≤ 0x1000 → ∃ t, Host.Core.run Sys2Proof.core k State.reset = .next t ∧
    t.pc.toNat = 0x200 + 2 * k ∧ t.history = List.replicate k ⟨.noEffect, some (.unknownOpcode 0x0000#16)⟩ ∧
    SameRegs State.reset t ∧ t.stk = [] ∧ t.ix.toNat = 0 ∧ SameMem State.reset t

/-- 70_reset_and_hazards.md section 1 and 40_fetch_step.md section 4: in every state whose memory reads
zero from `pc` up, each step up to the end of memory traces UnknownOpcode(0x0000), returns NoEffect and
changes only `pc`. It rests on no reset value. -/
def Obligations.ZeroWordsAreSkippedUpToTheEnd : Prop :=
  ∀ k (s : State), (∀ a, s.pc.toNat ≤ a → a < 4096 → s.mem.read a = 0x00#8) → s.pc.toNat + 2 * k ≤ 0x1000 →
    ∃ t : State, Host.Core.run Sys2Proof.core k s = .next t ∧ t.pc.toNat = s.pc.toNat + 2 * k ∧
      t.history = List.replicate k ⟨.noEffect, some (.unknownOpcode 0x0000#16)⟩ ++ s.history ∧
      SameRegs s t ∧ t.ix = s.ix ∧ t.stk = s.stk ∧ SameMem s t ∧ t.stackDepth = s.stackDepth

/-! ### Decoding and fetching -/

/-- R64: the opcode map, on every word. -/
def Obligations.DecodeFollowsTheOpcodeMap : Prop :=
  ∀ w : Word,
    (w.toNat = 0x00E0 → decode w = .ok .clearScreen) ∧
    (∀ a, FormatNNN 0x1 w a → decode w = .ok (.jump a)) ∧
    (∀ a, FormatNNN 0x2 w a → decode w = .ok (.callSubroutine a)) ∧
    (∀ x nn, FormatXNN 0x6 w x nn → decode w = .ok (.setRegisterImmediate x nn)) ∧
    (∀ x nn, FormatXNN 0x7 w x nn → decode w = .ok (.addImmediateToRegister x nn)) ∧
    (∀ a, FormatNNN 0xA w a → decode w = .ok (.setIndexImmediate a)) ∧
    (∀ x y n, FormatXYN 0xD w x y n → decode w = .ok (.drawSprite x y n)) ∧
    (IllegalWord w → decode w = .error (.unknownOpcode w))

/-- 30_encoding.md section 2 (decode priority), which the spec derives: the seven patterns never overlap,
and a word decodes exactly when one of them matches. -/
def Obligations.DecodableWordsMatchExactlyOneRow : Prop :=
  ∀ w : Word,
    ((∃ i, decode w = .ok i) ↔ ∃ p ∈ opcodeRows, w &&& p.1 = p.2) ∧
    (∀ p ∈ opcodeRows, ∀ q ∈ opcodeRows, w &&& p.1 = p.2 → w &&& q.1 = q.2 → p = q)

/-- 30_encoding.md sections 1 and 2: encoding and decoding are inverse. An encodable instruction decodes
from its word with every operand kept, and each decodable word is the encoding of what it decodes to. -/
def Obligations.EncodeAndDecodeAgree : Prop :=
  (∀ i : Instr, i.wellFormed = true → ∃ w, encode i = some w ∧ decode w = .ok i) ∧
    (∀ w i, decode w = .ok i → i.wellFormed = true ∧ encode i = some w)

/-- 30_encoding.md section 3 (ReturnFromSubroutine has no encoding), the spec's decision D11: no word
decodes to RET, 0x00EE included. -/
def Obligations.NoWordDecodesToReturn : Prop :=
  (∀ w, decode w ≠ .ok .returnFromSubroutine) ∧ decode 0x00EE#16 = .error (.unknownOpcode 0x00EE#16)

/-- 95_test_vectors.md section 2.1: words written out from the encodings decode to what they stand for. -/
def Obligations.DecodesKnownWordsOfEveryFormat : Prop :=
  decode 0b0000000011100000#16 = .ok .clearScreen ∧
    decode 0b0001101010111100#16 = .ok (.jump 0xABC#12) ∧
    decode 0b0010000000000000#16 = .ok (.callSubroutine 0x000#12) ∧
    decode 0b0110111111111111#16 = .ok (.setRegisterImmediate 15 0xFF#8) ∧
    decode 0b0111101000000001#16 = .ok (.addImmediateToRegister 10 0x01#8) ∧
    decode 0b1010000100100011#16 = .ok (.setIndexImmediate 0x123#12) ∧
    decode 0b1101000100100101#16 = .ok (.drawSprite 1 2 5) ∧
    decode 0b0000000011100001#16 = .error (.unknownOpcode 0x00E1#16)

/-- 20_memory.md section 2: the fetch port, on every memory and every address. That an odd address fetches
like any other is the spec's decision D6 (R45), and that a fetch with a byte out of range gives nothing is
its decision D7 (log entry 6). -/
def Obligations.FetchReadsTwoBytesBigEndian : Prop :=
  ∀ (m : Memory) (a : PcVal),
    (a.toNat + 1 < 4096 →
      ∃ w, fetchRead m a = some w ∧ w.toNat = 256 * (m.read a.toNat).toNat + (m.read (a.toNat + 1)).toNat) ∧
    (4096 ≤ a.toNat + 1 → fetchRead m a = none)

/-! ### The step -/

/-- 40_fetch_step.md sections 1, 3 and 5: a step whose fetched word decodes is execute of that instruction
in the state whose `pc` has advanced by 2 (a fetch in range never reaches the 16-bit wrap) and which is
otherwise the same. -/
def Obligations.StepRunsTheDecodedInstruction : Prop :=
  ∀ s w i, fetchRead s.mem s.pc = some w → decode w = .ok i →
    ∃ p, step s = exec i p ∧ p.pc.toNat = s.pc.toNat + 2 ∧ SameRegs s p ∧ p.ix = s.ix ∧
      p.stk = s.stk ∧ SameMem s p ∧ p.stackDepth = s.stackDepth ∧ p.history = s.history

/-- R84: an unknown opcode is skipped, with the failure on the trace output and nothing else written. -/
def Obligations.UnknownOpcodeIsSkipped : Prop :=
  ∀ s w, fetchRead s.mem s.pc = some w → IllegalWord w →
    ∃ t, step s = .next t ∧ PutOut s t ⟨.noEffect, some (.unknownOpcode w)⟩ ∧
      t.pc.toNat = s.pc.toNat + 2 ∧ SameRegs s t ∧ t.ix = s.ix ∧ t.stk = s.stk ∧ SameMem s t ∧
      t.stackDepth = s.stackDepth

/-- 40_fetch_step.md section 4 (fetch out of range), the spec's decisions D5 and D7 (assumptions 5 and 6):
the step is skipped, from 0x0FFF up to the 16-bit wrap. -/
def Obligations.FetchPastMemoryIsSkipped : Prop :=
  ∀ s : State, 0xFFF ≤ s.pc.toNat →
    ∃ t, step s = .next t ∧ PutOut s t ⟨.noEffect, some (.fetchOutOfRange s.pc)⟩ ∧
      t.pc.toNat = (s.pc.toNat + 2) % 65536 ∧ SameRegs s t ∧ t.ix = s.ix ∧ t.stk = s.stk ∧ SameMem s t ∧
      t.stackDepth = s.stackDepth

/-- R87: from every state any number of steps runs, each with one record, and a step that errs still
advances `pc`. -/
def Obligations.StepsNeverHaltOrBlock : Prop :=
  (∀ k (s : State), ∃ t : State, Host.Core.run Sys2Proof.core k s = .next t ∧
      t.history.length = s.history.length + k) ∧
    (∀ s t r, step s = .next t → PutOut s t r → r.errs → t.pc ≠ s.pc)

/-! ### The instructions -/

/-- R140: ClearScreen is exactly the word 0x00E0, and changes nothing. -/
def Obligations.ClearScreenChangesNothing : Prop :=
  (∀ w : Word, decode w = .ok .clearScreen ↔ w.toNat = 0x00E0) ∧
    (∀ s, ∃ t, exec .clearScreen s = .next t ∧ PutOut s t quiet ∧ t.pc = s.pc ∧ SameRegs s t ∧ t.ix = s.ix ∧
      t.stk = s.stk ∧ SameMem s t ∧ t.stackDepth = s.stackDepth)

/-- R100: LD Vx, nn, for every register and immediate. -/
def Obligations.SetRegisterWritesOnlyVx : Prop :=
  ∀ (s : State) w x nn, FormatXNN 0x6 w x nn →
    decode w = .ok (.setRegisterImmediate x nn) ∧
    ∃ t, exec (.setRegisterImmediate x nn) s = .next t ∧ t.getV x = nn ∧ SameRegsBut x s t ∧ PutOut s t quiet ∧
      t.pc = s.pc ∧ t.ix = s.ix ∧ t.stk = s.stk ∧ SameMem s t ∧ t.stackDepth = s.stackDepth

/-- R101: ADD Vx, nn, wrapping modulo 256 with no flag, V15 included; and the law of a set then an add. -/
def Obligations.AddImmediateWrapsIntoVxOnly : Prop :=
  (∀ (s : State) w x nn, FormatXNN 0x7 w x nn →
    decode w = .ok (.addImmediateToRegister x nn) ∧
    ∃ t, exec (.addImmediateToRegister x nn) s = .next t ∧
      (t.getV x).toNat = ((s.getV x).toNat + nn.toNat) % 256 ∧ SameRegsBut x s t ∧ PutOut s t quiet ∧
      t.pc = s.pc ∧ t.ix = s.ix ∧ t.stk = s.stk ∧ SameMem s t ∧ t.stackDepth = s.stackDepth) ∧
  (∀ s x v v2, ∃ t t', exec (.setRegisterImmediate x v) s = .next t ∧
    exec (.addImmediateToRegister x v2) t = .next t' ∧ (t'.getV x).toNat = (v.toNat + v2.toNat) % 256)

/-- R102: LD I, nnn; and a DrawSprite right after it reads from exactly that address. -/
def Obligations.SetIndexLoadsTheTwelveBitField : Prop :=
  (∀ (s : State) w nnn, FormatNNN 0xA w nnn →
    decode w = .ok (.setIndexImmediate nnn) ∧
    ∃ t, exec (.setIndexImmediate nnn) s = .next t ∧ t.ix.toNat = nnn.toNat ∧ SameRegs s t ∧ PutOut s t quiet ∧
      t.pc = s.pc ∧ t.stk = s.stk ∧ SameMem s t ∧ t.stackDepth = s.stackDepth) ∧
  (∀ s nnn x y (n : RowCount), nnn.toNat + n.val ≤ 4096 → ∃ t t' d, exec (.setIndexImmediate nnn) s = .next t ∧
    exec (.drawSprite x y n) t = .next t' ∧ PutOut t t' ⟨.draw d, none⟩ ∧
    d.rows = (List.range n.val).map fun r => rowOfNat (s.mem.read (nnn.toNat + r)).toNat)

/-- R121: JP nnn takes any target, so the next fetch is at `addr`. -/
def Obligations.JumpOverridesThePc : Prop :=
  ∀ (s : State) w addr, FormatNNN 0x1 w addr →
    decode w = .ok (.jump addr) ∧
    ∃ t, exec (.jump addr) s = .next t ∧ t.pc.toNat = addr.toNat ∧ SameRegs s t ∧ PutOut s t quiet ∧
      t.ix = s.ix ∧ t.stk = s.stk ∧ SameMem s t ∧ t.stackDepth = s.stackDepth

/-- 42_control_flow.md section 2 (CallSubroutine): with room on the stack, CALL pushes `pc_prov` plus 2 and
goes to `addr`. When it has no room is the spec's decision D10 (R124). -/
def Obligations.CallPushesAndJumps : Prop :=
  ∀ (s : State) w addr, FormatNNN 0x2 w addr → s.stackDepth ≠ some s.stk.length →
    decode w = .ok (.callSubroutine addr) ∧
    ∃ t e, exec (.callSubroutine addr) s = .next t ∧ t.stk = e :: s.stk ∧ e.toNat = (s.pc.toNat + 2) % 65536 ∧
      t.pc.toNat = addr.toNat ∧ SameRegs s t ∧ PutOut s t quiet ∧ t.ix = s.ix ∧ SameMem s t ∧
      t.stackDepth = s.stackDepth

/-- 42_control_flow.md section 3 (StackOverflow), the spec's decision D10: a CALL on a full finite stack
pushes nothing, does not jump and returns the error. -/
def Obligations.CallOnAFullStackErrs : Prop :=
  ∀ (s : State) addr, s.stackDepth = some s.stk.length →
    ∃ t, exec (.callSubroutine addr) s = .next t ∧ PutOut s t ⟨.error .stackOverflow, none⟩ ∧ t.pc = s.pc ∧
      t.stk = s.stk ∧ SameRegs s t ∧ t.ix = s.ix ∧ SameMem s t ∧ t.stackDepth = s.stackDepth

/-- 42_control_flow.md section 2 (ReturnFromSubroutine): the most recent entry goes to `pc` as it is. That
RET runs only when injected is the spec's decision D11. -/
def Obligations.ReturnPopsIntoThePc : Prop :=
  ∀ (s : State) r rest, s.stk = r :: rest →
    ∃ t, exec .returnFromSubroutine s = .next t ∧ t.pc = r ∧ t.stk = rest ∧ SameRegs s t ∧ PutOut s t quiet ∧
      t.ix = s.ix ∧ SameMem s t ∧ t.stackDepth = s.stackDepth

/-- 42_control_flow.md section 2 (ReturnFromSubroutine, exceptions), the spec's decision D9: an empty stack
is a recoverable error that changes nothing. -/
def Obligations.ReturnOnAnEmptyStackErrs : Prop :=
  ∀ s : State, s.stk = [] →
    ∃ t, exec .returnFromSubroutine s = .next t ∧ PutOut s t ⟨.error .stackUnderflow, none⟩ ∧ t.pc = s.pc ∧
      t.stk = [] ∧ SameRegs s t ∧ t.ix = s.ix ∧ SameMem s t ∧ t.stackDepth = s.stackDepth

/-- R126: a step that runs CALL pushes the call site plus 4, and a RET that finds the stack so, whatever
ran in between, goes there. Neither saves, passes or reserves a register. The premise that the stack has
room is the spec's decision D10. -/
def Obligations.CallThenReturnResumesAtSitePlusFour : Prop :=
  ∀ s w addr, fetchRead s.mem s.pc = some w → FormatNNN 0x2 w addr → s.stackDepth ≠ some s.stk.length →
    ∃ t e, step s = .next t ∧ t.stk = e :: s.stk ∧ e.toNat = s.pc.toNat + 4 ∧ t.pc.toNat = addr.toNat ∧
      SameRegs s t ∧ t.ix = s.ix ∧
      ∀ u : State, u.stk = t.stk → ∃ u', exec .returnFromSubroutine u = .next u' ∧
        u'.pc.toNat = s.pc.toNat + 4 ∧ u'.stk = s.stk ∧ SameRegs u u' ∧ u'.ix = u.ix

/-- R142 and R143: a DrawSprite whose rows are in range hands over the origin from VX and VY and `n` rows,
row `r` from the byte at `ix + r`, bit 7 first; and changes nothing. -/
def Obligations.DrawHandsOverOriginAndRows : Prop :=
  ∀ (s : State) w x y (n : RowCount), FormatXYN 0xD w x y n → (n.val = 0 ∨ s.ix.toNat + n.val ≤ 4096) →
    decode w = .ok (.drawSprite x y n) ∧
    ∃ t d, exec (.drawSprite x y n) s = .next t ∧ PutOut s t ⟨.draw d, none⟩ ∧
      d.origin = (s.getV x, s.getV y) ∧ d.rows.length = n.val ∧
      (∀ r, r < n.val → ∃ row : Row, d.rows[r]? = some row ∧
        ∀ c : Fin 8, row.get c = (s.mem.read (s.ix.toNat + r)).getLsbD (7 - c.val)) ∧
      t.pc = s.pc ∧ SameRegs s t ∧ t.ix = s.ix ∧ t.stk = s.stk ∧ SameMem s t ∧ t.stackDepth = s.stackDepth

/-- 43_display.md section 1 (DrawSprite, exceptions), the spec's decision D8 (assumption 7): all or
nothing, with the first row address out of range. -/
def Obligations.DrawPastMemoryErrs : Prop :=
  ∀ (s : State) x y (n : RowCount), n.val ≠ 0 → 4096 < s.ix.toNat + n.val →
    ∃ t, exec (.drawSprite x y n) s = .next t ∧
      PutOut s t ⟨.error (.spriteOutOfRange (max s.ix.toNat 4096)), none⟩ ∧
      t.pc = s.pc ∧ SameRegs s t ∧ t.ix = s.ix ∧ t.stk = s.stk ∧ SameMem s t ∧ t.stackDepth = s.stackDepth

/-! ### Rules of the whole machine -/

/-- 10_state.md section 1 (the access table), which the spec derives: only LD Vx, nn and ADD Vx, nn write a
general register, and only VX. -/
def Obligations.OnlyRegisterInstructionsWriteRegisters : Prop :=
  (∀ i s t y, exec i s = .next t → t.getV y ≠ s.getV y →
    ∃ nn, i = .setRegisterImmediate y nn ∨ i = .addImmediateToRegister y nn) ∧
  (∀ s t y, step s = .next t → t.getV y ≠ s.getV y →
    ∃ w nn, fetchRead s.mem s.pc = some w ∧ (FormatXNN 0x6 w y nn ∨ FormatXNN 0x7 w y nn))

/-- 20_memory.md section 3 (no instruction writes memory), which the spec derives. -/
def Obligations.NoInstructionWritesMemory : Prop :=
  (∀ i s t, exec i s = .next t → t.mem = s.mem) ∧ (∀ s t, step s = .next t → t.mem = s.mem)

/-- 10_state.md section 3: `ix` is written only by LD I, nnn, with the zero-extended field. -/
def Obligations.OnlySetIndexWritesTheIndex : Prop :=
  (∀ i s t, exec i s = .next t → t.ix ≠ s.ix → ∃ nnn, i = .setIndexImmediate nnn ∧ t.ix.toNat = nnn.toNat) ∧
  (∀ s t, step s = .next t → t.ix ≠ s.ix →
    ∃ w nnn, fetchRead s.mem s.pc = some w ∧ FormatNNN 0xA w nnn ∧ t.ix.toNat = nnn.toNat)

/-- 42_control_flow.md section 1: the rows of the control-flow mux that a step can take. The wrap (D5) and
the full stack (D10) are the spec's decisions. -/
def Obligations.NextPcIsWhatTheMuxSelects : Prop :=
  ∀ s t, step s = .next t →
    (∀ w a, fetchRead s.mem s.pc = some w → FormatNNN 0x1 w a → t.pc.toNat = a.toNat) ∧
    (∀ w a, fetchRead s.mem s.pc = some w → FormatNNN 0x2 w a → s.stackDepth ≠ some s.stk.length →
      t.pc.toNat = a.toNat) ∧
    (∀ w a, fetchRead s.mem s.pc = some w → FormatNNN 0x2 w a → s.stackDepth = some s.stk.length →
      t.pc.toNat = (s.pc.toNat + 2) % 65536) ∧
    ((∀ w, fetchRead s.mem s.pc = some w → w.toNat / 4096 ≠ 0x1 ∧ w.toNat / 4096 ≠ 0x2) →
      t.pc.toNat = (s.pc.toNat + 2) % 65536)

/-- 10_state.md section 4: only CallSubroutine and ReturnFromSubroutine touch the stack; a step changes it
only by pushing a call site plus 4, at most 0x1002. -/
def Obligations.OnlyCallAndReturnTouchTheStack : Prop :=
  (∀ i s t, exec i s = .next t → t.stk ≠ s.stk → (∃ a, i = .callSubroutine a) ∨ i = .returnFromSubroutine) ∧
  (∀ s t, step s = .next t → t.stk ≠ s.stk →
    ∃ w a e, fetchRead s.mem s.pc = some w ∧ FormatNNN 0x2 w a ∧ t.stk = e :: s.stk ∧
      e.toNat = s.pc.toNat + 4 ∧ e.toNat ≤ 0x1002)

/-- R145: every step puts out exactly one record, a draw request only from a DrawSprite word; and no step
reads back what an earlier one put out. -/
def Obligations.DrawRequestsOnlyFromDrawAndNeverReadBack : Prop :=
  (∀ s t, step s = .next t → ∃ r, PutOut s t r ∧ ∀ d, r.result = .draw d →
    ∃ w x y n, fetchRead s.mem s.pc = some w ∧ FormatXYN 0xD w x y n) ∧
  (∀ s t r h, step s = .next t → PutOut s t r →
    step { s with history := h } = .next { t with history := r :: h })

/-- 60_exceptions.md sections 1 and 2 (decode failures stay inside the step; what `raise` does), the second
of which the spec derives: after any error the state is the one before with `pc` advanced, and a traced
failure comes with `NoEffect`. -/
def Obligations.EveryErrorIsPrecise : Prop :=
  ∀ s t r, step s = .next t → PutOut s t r → r.errs →
    t.pc.toNat = (s.pc.toNat + 2) % 65536 ∧ SameRegs s t ∧ t.ix = s.ix ∧ t.stk = s.stk ∧ t.mem = s.mem ∧
      t.stackDepth = s.stackDepth ∧ (r.trace ≠ none → r.result = .noEffect)

/-- 43_display.md section 1 and 92_eei_decisions.md D9, D10, which the spec derives: from a state that meets
the invariant, a step never underflows, overflows only a finite stack, and reports a sprite out of range
only at 0x1000. -/
def Obligations.StepErrorsAreTheReachableOnes : Prop :=
  ∀ s t r, s.Inv → step s = .next t → PutOut s t r →
    r.result ≠ .error .stackUnderflow ∧
    (r.result = .error .stackOverflow → s.stackDepth = some s.stk.length) ∧
    (∀ a, r.result = .error (.spriteOutOfRange a) → a = 0x1000)

/-! ### Invariants -/

/-- 10_state.md sections 3, 6 and 7: the state after construction of a build of any stack depth meets the
invariant, and the reset state is that of the default depth. It rests on the decided reset values (D12,
D13; assumptions 3 and 4). -/
def Obligations.ResetMeetsTheInvariant : Prop :=
  (∀ depth, (resetBuild depth).Inv ∧ (resetBuild depth).stackDepth = depth) ∧ resetBuild none = State.reset

/-- 10_state.md sections 3, 4 and 7 and 42_control_flow.md section 2, in part derived by the spec: every
step from every state that meets the invariant keeps it. -/
def Obligations.StepKeepsTheInvariant : Prop := ∀ s t, s.Inv → step s = .next t → t.Inv

/-- 70_reset_and_hazards.md section 2: so does every sequence of Loads and steps; and each step, and
nothing else, adds one record, so that a recorded error stays recorded (93_implementation_defined.md U3). -/
def Obligations.HostRunsKeepTheInvariantAndTheRecords : Prop :=
  ∀ ops s t, s.Inv → runOps ops s = .next t →
    t.Inv ∧ t.stackDepth = s.stackDepth ∧
    (∃ l, t.history = l ++ s.history ∧ l.length = ops.count .step) ∧ (t.Clean → s.Clean)

/-! ### Load and memory order -/

/-- 20_memory.md section 4: Load copies its bytes verbatim from 0x200 up and sets `pc`. That it leaves all
else alone is the spec's decision D15 (assumption 10). -/
def Obligations.LoadCopiesVerbatimAndSetsPc : Prop :=
  ∀ bs (s : State), s.mem.wf = true → bs.length ≤ 3584 →
    ∃ t, load bs s = .next t ∧ t.pc.toNat = 0x200 ∧ (∀ k b, bs[k]? = some b → t.mem.read (0x200 + k) = b) ∧
      (∀ a, a < 0x200 ∨ 0x200 + bs.length ≤ a → t.mem.read a = s.mem.read a) ∧ t.mem.wf = true ∧
      SameRegs s t ∧ t.ix = s.ix ∧ t.stk = s.stk ∧ t.stackDepth = s.stackDepth ∧ t.history = s.history

/-- 20_memory.md section 4 (out of contract), the spec's decision D16 (assumption 9). -/
def Obligations.OverlongLoadHasNoTransition : Prop :=
  ∀ bs s, 3584 < bs.length → load bs s = .refused (.loadOverLimit bs.length)

/-- 20_memory.md section 6 (instruction-fetch coherence), which the spec derives: the step after a Load
runs the word that Load wrote, at 0x200 (20_memory.md section 4). It runs it with the registers, `ix`, the
stack and the history of before the Load, which is the spec's decision D15 (log entry 10). -/
def Obligations.StepAfterLoadRunsTheLoadedWord : Prop :=
  ∀ hi lo rest s i (w : Word), s.mem.wf = true → (hi :: lo :: rest).length ≤ 3584 →
    w.toNat = 256 * hi.toNat + lo.toNat → decode w = .ok i →
    ∃ t p, load (hi :: lo :: rest) s = .next t ∧ step t = exec i p ∧ p.pc.toNat = 0x202 ∧ SameRegs s p ∧
      p.ix = s.ix ∧ p.stk = s.stk ∧ p.stackDepth = s.stackDepth ∧ p.history = s.history ∧ SameMem t p

/-- R54: after any sequence of Loads and steps, an address reads what the latest Load that covered it put
there, or what it held before, the reset value when the run began at reset. -/
def Obligations.MemoryHoldsTheLatestLoad : Prop :=
  (∀ ops s t a, s.mem.wf = true → runOps ops s = .next t → t.mem.read a = latestLoad ops a (s.mem.read a)) ∧
    (∀ ops t a, runOps ops State.reset = .next t →
      t.mem.read a = latestLoad ops a (State.reset.mem.read a))

/-! ### The machine against the spec's own tuple -/

/-- 40_fetch_step.md section 1, with 10_state.md section 7: from every state, one step is the step of the
tuple `(V, pc, ix, stk, M)` read off the rules in exact arithmetic, with the same result and trace. It takes
in the spec's decisions D5, D7, D8 and D10. -/
def Obligations.StepRefinesTheTuple : Prop :=
  ∀ s, ∃ t r, step s = .next t ∧ PutOut s t r ∧ t.stackDepth = s.stackDepth ∧
    (Tuple.ofState t, r) = Tuple.step s.stackDepth (Tuple.ofState s)

/-- 20_memory.md section 4 and 10_state.md section 7: a Load in contract is the Load of the tuple. It takes
in the spec's decision D15. -/
def Obligations.LoadRefinesTheTuple : Prop :=
  ∀ bs (s : State), s.mem.wf = true → bs.length ≤ 3584 →
    ∃ t, load bs s = .next t ∧ Tuple.ofState t = Tuple.load bs (Tuple.ofState s)
end

