-- ==== Sys2Proof/Laws/State.lean ====
section
/-! SUPPORT. One lemma per field per update of the state, each true by unfolding, so that no later proof
unfolds a record update; and reading a register after writing one. -/

namespace Sys2Proof.Machine

section
variable (s : State) (x : RegIdx) (b : RegVal)
@[simp] theorem State.setV_v : (s.setV x b).v = s.v.set x b := rfl
@[simp] theorem State.setV_pc : (s.setV x b).pc = s.pc := rfl
@[simp] theorem State.setV_ix : (s.setV x b).ix = s.ix := rfl
@[simp] theorem State.setV_stk : (s.setV x b).stk = s.stk := rfl
@[simp] theorem State.setV_mem : (s.setV x b).mem = s.mem := rfl
@[simp] theorem State.setV_stackDepth : (s.setV x b).stackDepth = s.stackDepth := rfl
@[simp] theorem State.setV_history : (s.setV x b).history = s.history := rfl
end

section
variable (s : State) (a : PcVal)
@[simp] theorem State.setPc_v : (s.setPc a).v = s.v := rfl
@[simp] theorem State.setPc_pc : (s.setPc a).pc = a := rfl
@[simp] theorem State.setPc_ix : (s.setPc a).ix = s.ix := rfl
@[simp] theorem State.setPc_stk : (s.setPc a).stk = s.stk := rfl
@[simp] theorem State.setPc_mem : (s.setPc a).mem = s.mem := rfl
@[simp] theorem State.setPc_stackDepth : (s.setPc a).stackDepth = s.stackDepth := rfl
@[simp] theorem State.setPc_history : (s.setPc a).history = s.history := rfl
@[simp] theorem State.setPc_getV (y : RegIdx) : (s.setPc a).getV y = s.getV y := rfl
end

section
variable (s : State) (a : IxVal)
@[simp] theorem State.setIx_v : (s.setIx a).v = s.v := rfl
@[simp] theorem State.setIx_pc : (s.setIx a).pc = s.pc := rfl
@[simp] theorem State.setIx_ix : (s.setIx a).ix = a := rfl
@[simp] theorem State.setIx_stk : (s.setIx a).stk = s.stk := rfl
@[simp] theorem State.setIx_mem : (s.setIx a).mem = s.mem := rfl
@[simp] theorem State.setIx_stackDepth : (s.setIx a).stackDepth = s.stackDepth := rfl
@[simp] theorem State.setIx_history : (s.setIx a).history = s.history := rfl
@[simp] theorem State.setIx_getV (y : RegIdx) : (s.setIx a).getV y = s.getV y := rfl
end

section
variable (s : State) (l : List StackVal)
@[simp] theorem State.setStk_v : (s.setStk l).v = s.v := rfl
@[simp] theorem State.setStk_pc : (s.setStk l).pc = s.pc := rfl
@[simp] theorem State.setStk_ix : (s.setStk l).ix = s.ix := rfl
@[simp] theorem State.setStk_stk : (s.setStk l).stk = l := rfl
@[simp] theorem State.setStk_mem : (s.setStk l).mem = s.mem := rfl
@[simp] theorem State.setStk_stackDepth : (s.setStk l).stackDepth = s.stackDepth := rfl
@[simp] theorem State.setStk_history : (s.setStk l).history = s.history := rfl
@[simp] theorem State.setStk_getV (y : RegIdx) : (s.setStk l).getV y = s.getV y := rfl
end

section
variable (s : State) (m : Memory)
@[simp] theorem State.setMem_v : (s.setMem m).v = s.v := rfl
@[simp] theorem State.setMem_pc : (s.setMem m).pc = s.pc := rfl
@[simp] theorem State.setMem_ix : (s.setMem m).ix = s.ix := rfl
@[simp] theorem State.setMem_stk : (s.setMem m).stk = s.stk := rfl
@[simp] theorem State.setMem_mem : (s.setMem m).mem = m := rfl
@[simp] theorem State.setMem_stackDepth : (s.setMem m).stackDepth = s.stackDepth := rfl
@[simp] theorem State.setMem_history : (s.setMem m).history = s.history := rfl
@[simp] theorem State.setMem_getV (y : RegIdx) : (s.setMem m).getV y = s.getV y := rfl
end

section
variable (s : State) (a : StackVal)
@[simp] theorem State.push_v : (s.push a).v = s.v := rfl
@[simp] theorem State.push_pc : (s.push a).pc = s.pc := rfl
@[simp] theorem State.push_ix : (s.push a).ix = s.ix := rfl
@[simp] theorem State.push_stk : (s.push a).stk = a :: s.stk := rfl
@[simp] theorem State.push_mem : (s.push a).mem = s.mem := rfl
@[simp] theorem State.push_stackDepth : (s.push a).stackDepth = s.stackDepth := rfl
@[simp] theorem State.push_history : (s.push a).history = s.history := rfl
@[simp] theorem State.push_getV (y : RegIdx) : (s.push a).getV y = s.getV y := rfl
end

section
variable (s : State) (r : StepRecord)
@[simp] theorem State.record_v : (s.record r).v = s.v := rfl
@[simp] theorem State.record_pc : (s.record r).pc = s.pc := rfl
@[simp] theorem State.record_ix : (s.record r).ix = s.ix := rfl
@[simp] theorem State.record_stk : (s.record r).stk = s.stk := rfl
@[simp] theorem State.record_mem : (s.record r).mem = s.mem := rfl
@[simp] theorem State.record_stackDepth : (s.record r).stackDepth = s.stackDepth := rfl
@[simp] theorem State.record_history : (s.record r).history = r :: s.history := rfl
@[simp] theorem State.record_getV (y : RegIdx) : (s.record r).getV y = s.getV y := rfl
end

section
variable (s : State)
@[simp] theorem State.advancePc_v : s.advancePc.v = s.v := rfl
@[simp] theorem State.advancePc_pc : s.advancePc.pc = pcIncrement s.pc := rfl
@[simp] theorem State.advancePc_ix : s.advancePc.ix = s.ix := rfl
@[simp] theorem State.advancePc_stk : s.advancePc.stk = s.stk := rfl
@[simp] theorem State.advancePc_mem : s.advancePc.mem = s.mem := rfl
@[simp] theorem State.advancePc_stackDepth : s.advancePc.stackDepth = s.stackDepth := rfl
@[simp] theorem State.advancePc_history : s.advancePc.history = s.history := rfl
@[simp] theorem State.advancePc_getV (y : RegIdx) : s.advancePc.getV y = s.getV y := rfl
end

/-- Reading a register after writing one (10_state.md R20: independently addressable). -/
theorem State.getV_setV (s : State) (x y : RegIdx) (b : RegVal) :
    (s.setV x b).getV y = if y = x then b else s.getV y := by
  simp only [State.getV, State.setV, Vector.get_eq_getElem, Vector.getElem_set, Fin.ext_iff]
  simp only [eq_comm]

@[simp] theorem State.getV_setV_same (s : State) (x : RegIdx) (b : RegVal) : (s.setV x b).getV x = b := by
  simp [State.getV_setV]

theorem State.getV_setV_other (s : State) (x y : RegIdx) (b : RegVal) (h : y ≠ x) :
    (s.setV x b).getV y = s.getV y := by
  simp [State.getV_setV, h]

@[simp] theorem State.reset_getV (y : RegIdx) : State.reset.getV y = BitVec.ofNat Config.vWidth 0 := by
  simp [State.getV, State.reset, Vector.get_eq_getElem]

end Sys2Proof.Machine
end

