-- ==== Sys2Proof/Laws/Widths.lean ====
section
/-! SUPPORT. The value types at the parameters of Config.lean, written out once as bounds, so that no proof
meets a power of a parameter. A corrected literal is corrected in Config alone; these lemmas then say
which proofs rest on it (00_scope.md R8). -/

namespace Sys2Proof.Laws

theorem regVal_lt (a : RegVal) : a.toNat < 256 := a.isLt
theorem pcVal_lt (a : PcVal) : a.toNat < 65536 := a.isLt
theorem ixVal_lt (a : IxVal) : a.toNat < 65536 := a.isLt
theorem stackVal_lt (a : StackVal) : a.toNat < 65536 := a.isLt
theorem regIdx_lt (x : RegIdx) : x.val < 16 := x.isLt
theorem rowCount_le (n : RowCount) : n.val ≤ 15 := Nat.le_of_lt_succ n.isLt
theorem row_size (r : Row) : r.toList.length = 8 := by simp

end Sys2Proof.Laws
end

