-- ==== Sys2Proof/Laws/Ops.lean ====
section
/-! SUPPORT. One lemma for each shared operation that says everything it can do, for proofs to cite in
place of unfolding it; and the fields of a word as arithmetic. -/

namespace Sys2Proof

/-! ### Words and their fields -/

theorem joinBytes_toNat (hi lo : Byte) : (joinBytes hi lo).toNat = 256 * hi.toNat + lo.toNat := by
  have h1 := hi.isLt
  have h2 := lo.isLt
  have e : joinBytes hi lo = hi.zeroExtend 16 * 256#16 + lo.zeroExtend 16 := by
    rw [joinBytes, BitVec.shiftLeft_eq_mul_twoPow, show BitVec.twoPow 16 8 = 256#16 by decide]
    rw [← BitVec.add_eq_or_of_and_eq_zero]
    ext i hi'
    rw [show (256#16 : BitVec 16) = BitVec.twoPow 16 8 by decide, ← BitVec.shiftLeft_eq_mul_twoPow]
    simp only [BitVec.truncate_eq_setWidth, BitVec.getElem_and, BitVec.getElem_shiftLeft,
      BitVec.getElem_setWidth, BitVec.getElem_zero]
    by_cases h : i < 8
    · simp [h]
    · simp [show 8 ≤ i by omega]
  rw [e]
  simp only [BitVec.truncate_eq_setWidth, BitVec.toNat_add, BitVec.toNat_mul, BitVec.toNat_setWidth,
    BitVec.toNat_ofNat]
  omega

theorem fieldOp_toNat (w : Word) : (fieldOp w).toNat = w.toNat / 4096 := by
  have := w.isLt
  simp [fieldOp, Nat.shiftRight_eq_div_pow]
  omega

theorem fieldX_val (w : Word) : (fieldX w).val = w.toNat / 256 % 16 := by
  simp [fieldX, Nat.shiftRight_eq_div_pow]

theorem fieldY_val (w : Word) : (fieldY w).val = w.toNat / 16 % 16 := by
  simp [fieldY, Nat.shiftRight_eq_div_pow]

theorem fieldN_val (w : Word) : (fieldN w).val = w.toNat % 16 := by
  simp [fieldN]

theorem fieldNN_toNat (w : Word) : (fieldNN w).toNat = w.toNat % 256 := by
  simp [fieldNN]

theorem fieldNNN_toNat (w : Word) : (fieldNNN w).toNat = w.toNat % 4096 := by
  simp [fieldNNN]

theorem packNNN_toNat (op : BitVec 4) (nnn : Addr12) :
    (packNNN op nnn).toNat = op.toNat * 4096 + nnn.toNat := by
  have := nnn.isLt
  simp only [packNNN, BitVec.toNat_append]
  rw [← Nat.shiftLeft_add_eq_or_of_lt this, Nat.shiftLeft_eq]

theorem packXNN_toNat (op : BitVec 4) (x : RegIdx) (nn : Byte) :
    (packXNN op x nn).toNat = op.toNat * 4096 + x.val * 256 + nn.toNat := by
  have h1 := nn.isLt
  have h2 : x.val < 2 ^ 4 := x.isLt
  simp only [packXNN, BitVec.toNat_append, BitVec.toNat_ofFin]
  rw [← Nat.shiftLeft_add_eq_or_of_lt h2, ← Nat.shiftLeft_add_eq_or_of_lt h1, Nat.shiftLeft_eq,
    Nat.shiftLeft_eq]
  omega

theorem packXYN_toNat (op : BitVec 4) (x y : RegIdx) (n : RowCount) :
    (packXYN op x y n).toNat = op.toNat * 4096 + x.val * 256 + y.val * 16 + n.val := by
  have h1 : n.val < 2 ^ 4 := n.isLt
  have h2 : y.val < 2 ^ 4 := y.isLt
  have h3 : x.val < 2 ^ 4 := x.isLt
  simp only [packXYN, BitVec.toNat_append, BitVec.toNat_ofFin]
  rw [← Nat.shiftLeft_add_eq_or_of_lt h3, ← Nat.shiftLeft_add_eq_or_of_lt h2,
    ← Nat.shiftLeft_add_eq_or_of_lt h1, Nat.shiftLeft_eq, Nat.shiftLeft_eq, Nat.shiftLeft_eq]
  omega

namespace Machine

/-! ### Reading memory -/

theorem memRead_of_lt {m : Memory} {a : Nat} (h : a < 4096) : memRead m a = some (m.read a) := by
  simp [memRead, h]

theorem memRead_of_ge {m : Memory} {a : Nat} (h : 4096 ≤ a) : memRead m a = none := by
  simp [memRead]
  omega

/-- A fetch whose two bytes are in range. -/
theorem fetchRead_of_lt {m : Memory} {a : PcVal} (h : a.toNat + 1 < 4096) :
    fetchRead m a = some (joinBytes (m.read a.toNat) (m.read (a.toNat + 1))) := by
  simp only [fetchRead, memRead_of_lt (show a.toNat < 4096 by omega), memRead_of_lt h]

/-- A fetch at or past the memory boundary. -/
theorem fetchRead_of_ge {m : Memory} {a : PcVal} (h : 4096 ≤ a.toNat + 1) : fetchRead m a = none := by
  simp only [fetchRead, memRead_of_ge h]
  split <;> simp_all

theorem fetchRead_eq_some {m : Memory} {a : PcVal} {w : Word} (h : fetchRead m a = some w) :
    a.toNat + 1 < 4096 ∧ w = joinBytes (m.read a.toNat) (m.read (a.toNat + 1)) := by
  by_cases hlt : a.toNat + 1 < 4096
  · rw [fetchRead_of_lt hlt] at h
    exact ⟨hlt, (Option.some.inj h).symm⟩
  · rw [fetchRead_of_ge (by omega)] at h
    cases h

/-! ### The rows of a sprite -/

/-- In range, the rows are the expanded bytes in ascending order. -/
theorem readRows_ok {m : Memory} {ix : IxVal} {r k : Nat} (h : k = 0 ∨ ix.toNat + r + k ≤ 4096) :
    readRows m ix r k = .ok ((List.range' r k).map fun j => expand (m.read (ix.toNat + j))) := by
  induction k generalizing r with
  | zero => rfl
  | succ k ih =>
    have hr : ix.toNat + r < 4096 := by omega
    simp only [readRows, rowAddr, memRead_of_lt hr, ih (r := r + 1) (by omega), List.range'_succ, List.map_cons]

/-- Out of range, the address recorded is the first row address past the end. -/
theorem readRows_error {m : Memory} {ix : IxVal} {r k : Nat} (hk : k ≠ 0) (h : 4096 < ix.toNat + r + k) :
    readRows m ix r k = .error (max (ix.toNat + r) 4096) := by
  induction k generalizing r with
  | zero => exact absurd rfl hk
  | succ k ih =>
    by_cases hr : ix.toNat + r < 4096
    · simp only [readRows, rowAddr, memRead_of_lt hr, ih (r := r + 1) (by omega) (by omega), Except.error.injEq]
      omega
    · simp only [readRows, rowAddr, memRead_of_ge (show 4096 ≤ ix.toNat + r by omega), Except.error.injEq]
      omega

/-! ### How an execution ends -/

theorem finish_next {s t : State} (h : finish s = .next t) : t = s.record ⟨.noEffect, none⟩ := by
  cases h
  rfl

theorem emitDraw_next {d : DrawAction} {s t : State} (h : emitDraw d s = .next t) :
    t = s.record ⟨.draw d, none⟩ := by
  cases h
  rfl

theorem raise_next {e : StepError} {s t : State} (h : raise e s = .next t) :
    t = s.record ⟨.error e, none⟩ := by
  cases h
  rfl

theorem decodeFailed_next {f : DecodeFailure} {s t : State} (h : decodeFailed f s = .next t) :
    t = s.record ⟨.noEffect, some f⟩ := by
  cases h
  rfl

/-- Load answers a next state exactly for a sequence in contract, and says which. -/
theorem load_next {bs : List Byte} {s t : State} (h : load bs s = .next t) :
    bs.length ≤ 3584 ∧ t = (s.setMem (s.mem.writeBytes 0x200 bs)).setPc 0x200#16 := by
  unfold load at h
  split at h
  · rename_i hl
    cases h
    exact ⟨hl, rfl⟩
  · cases h

/-! ### Operands: every conversion keeps the value -/

theorem zextPc_toNat (nnn : Addr12) : (zextPc nnn).toNat = nnn.toNat := by
  have := nnn.isLt
  simp [zextPc]
  omega

theorem zextIx_toNat (nnn : Addr12) : (zextIx nnn).toNat = nnn.toNat := by
  have := nnn.isLt
  simp [zextIx]
  omega

@[simp] theorem immediate_eq (nn : Byte) : immediate nn = nn := BitVec.setWidth_eq nn
@[simp] theorem pcToEntry_eq (a : PcVal) : pcToEntry a = a := BitVec.setWidth_eq a
@[simp] theorem entryToPc_eq (a : StackVal) : entryToPc a = a := BitVec.setWidth_eq a

theorem addReg_toNat (a b : RegVal) : (addReg a b).toNat = (a.toNat + b.toNat) % 256 := BitVec.toNat_add a b

/-- The eight pixels of a row, bit 7 first, as 43_display.md R143 lists them. -/
theorem expand_eq (b : Byte) : expand b = #v[b.getLsbD 7, b.getLsbD 6, b.getLsbD 5, b.getLsbD 4,
    b.getLsbD 3, b.getLsbD 2, b.getLsbD 1, b.getLsbD 0] := rfl

theorem pcIncrement_toNat (a : PcVal) : (pcIncrement a).toNat = (a.toNat + 2) % 65536 := by
  simp [pcIncrement]

theorem stackFull_iff {s : State} : s.stackFull = true ↔ s.stackDepth = some s.stk.length := by
  unfold State.stackFull
  cases s.stackDepth with
  | none => simp
  | some d =>
    simp only [beq_iff_eq, Option.some.injEq]
    exact eq_comm

end Machine

end Sys2Proof
end

