-- ==== Sys2Proof/Laws/PerInstr.lean ====
section
/-! SUPPORT. Facts about every instruction as syntax, one lemma per constructor. -/

namespace Sys2Proof.Laws

/-- Masking with 0xF000 keeps the opcode nibble. -/
theorem mask_append (op : BitVec 4) (r : BitVec 12) :
    (op ++ r : Word) &&& 0xF000#16 = (op ++ 0#12 : Word) := by
  rw [show (0xF000#16 : Word) = (0xF#4 ++ 0#12 : Word) by decide]
  ext i hi
  simp only [BitVec.getElem_and, BitVec.getElem_append]
  split
  · simp
  · have h : (0xF#4 : BitVec 4)[i - 12]'(by omega) = true := BitVec.getElem_allOnes (i - 12) (by omega)
    simp only [h, Bool.and_true]

/-- The encoding of `i` matches a row of the opcode table (30_encoding.md R64). -/
def TableRow.Statement (i : Instr) : Prop := ∀ w, encode i = some w → ∃ p ∈ opcodeRows, w &&& p.1 = p.2

theorem TableRow.clearScreen : TableRow.Statement .clearScreen := by
  rintro w ⟨⟩
  exact ⟨(0xFFFF#16, 0x00E0#16), by decide, by decide⟩

theorem TableRow.jump (addr : Addr12) : TableRow.Statement (.jump addr) := by
  rintro w ⟨⟩
  exact ⟨(0xF000#16, 0x1000#16), by decide, mask_append _ _⟩

theorem TableRow.callSubroutine (addr : Addr12) : TableRow.Statement (.callSubroutine addr) := by
  rintro w ⟨⟩
  exact ⟨(0xF000#16, 0x2000#16), by decide, mask_append _ _⟩

theorem TableRow.setRegisterImmediate (x : RegIdx) (nn : Byte) :
    TableRow.Statement (.setRegisterImmediate x nn) := by
  rintro w ⟨⟩
  refine ⟨(0xF000#16, 0x6000#16), by decide, ?_⟩
  rw [packXNN, BitVec.append_assoc]
  exact mask_append _ _

theorem TableRow.addImmediateToRegister (x : RegIdx) (nn : Byte) :
    TableRow.Statement (.addImmediateToRegister x nn) := by
  rintro w ⟨⟩
  refine ⟨(0xF000#16, 0x7000#16), by decide, ?_⟩
  rw [packXNN, BitVec.append_assoc]
  exact mask_append _ _

theorem TableRow.setIndexImmediate (nnn : Addr12) : TableRow.Statement (.setIndexImmediate nnn) := by
  rintro w ⟨⟩
  exact ⟨(0xF000#16, 0xA000#16), by decide, mask_append _ _⟩

theorem TableRow.drawSprite (x y : RegIdx) (n : RowCount) : TableRow.Statement (.drawSprite x y n) := by
  rintro w ⟨⟩
  refine ⟨(0xF000#16, 0xD000#16), by decide, ?_⟩
  rw [packXYN, BitVec.append_assoc, BitVec.append_assoc]
  exact mask_append _ _

theorem TableRow.returnFromSubroutine : TableRow.Statement .returnFromSubroutine := by
  rintro w ⟨⟩

end Sys2Proof.Laws
end

