-- ==== Sys2Proof/Laws/Run.lean ====
section
/-! SUPPORT. How `k` steps, and a sequence of host operations, unfold one at a time. -/

namespace Sys2Proof.Machine

theorem coreRun_succ (C : Host.Core) {k : Nat} {s t : C.State} (h : C.step s = .next t) :
    C.run (k + 1) s = C.run k t := by
  simp only [Host.Core.run, h]

/-- One step of this machine, then the rest. -/
theorem run_succ_of_next {k : Nat} {s t : State} (h : step s = .next t) :
    Host.Core.run Sys2Proof.core (k + 1) s = Host.Core.run Sys2Proof.core k t :=
  coreRun_succ Sys2Proof.core h

@[simp] theorem run_zero (s : State) : Host.Core.run Sys2Proof.core 0 s = .next s := rfl

@[simp] theorem runOps_nil (s : State) : runOps [] s = .next s := rfl

/-- One host operation, then the rest. -/
theorem runOps_cons_of_next {o : HostOp} {os : List HostOp} {s t : State} (h : hostOp o s = .next t) :
    runOps (o :: os) s = runOps os t := by
  simp only [runOps, h]

end Sys2Proof.Machine
end

