-- ==== Sys2Proof/Laws/Step.lean ====
section
/-! SUPPORT. What a step can do, said once: the decoder by cases on the opcode as a number, the outcome of
each meaning that branches, and the inversion of `exec` and of `step`. -/

namespace Sys2Proof

theorem word_eq_iff {w k : Word} : w = k ↔ w.toNat = k.toNat := BitVec.toNat_inj.symm

theorem fieldOp_eq_iff {w : Word} {k : BitVec 4} : fieldOp w = k ↔ w.toNat / 4096 = k.toNat := by
  rw [← fieldOp_toNat]
  exact BitVec.toNat_inj.symm

/-- The decoder with its tests as arithmetic on the word. -/
theorem decode_eq (w : Word) : decode w =
    if w.toNat = 0x00E0 then .ok .clearScreen
    else if w.toNat / 4096 = 1 then .ok (.jump (fieldNNN w))
    else if w.toNat / 4096 = 2 then .ok (.callSubroutine (fieldNNN w))
    else if w.toNat / 4096 = 6 then .ok (.setRegisterImmediate (fieldX w) (fieldNN w))
    else if w.toNat / 4096 = 7 then .ok (.addImmediateToRegister (fieldX w) (fieldNN w))
    else if w.toNat / 4096 = 10 then .ok (.setIndexImmediate (fieldNNN w))
    else if w.toNat / 4096 = 13 then .ok (.drawSprite (fieldX w) (fieldY w) (fieldN w))
    else .error (.unknownOpcode w) := by
  unfold decode
  simp only [fieldOp_eq_iff, word_eq_iff]
  rfl

namespace Machine

/-! ### The meanings that branch -/

theorem execCallSubroutine_room {s : State} (addr : Addr12) (h : s.stackDepth ≠ some s.stk.length) :
    execCallSubroutine addr s = finish ((s.push (pcToEntry (pcIncrement s.pc))).setPc (zextPc addr)) := by
  have : ¬ s.stackFull = true := fun hf => h (stackFull_iff.1 hf)
  simp only [execCallSubroutine, this]
  rfl

theorem execCallSubroutine_full {s : State} (addr : Addr12) (h : s.stackDepth = some s.stk.length) :
    execCallSubroutine addr s = raise .stackOverflow s := by
  simp only [execCallSubroutine, stackFull_iff.2 h, if_true]

theorem execReturnFromSubroutine_nil {s : State} (h : s.stk = []) :
    execReturnFromSubroutine s = raise .stackUnderflow s := by
  simp only [execReturnFromSubroutine, h]

theorem execReturnFromSubroutine_cons {s : State} {r : StackVal} {rest : List StackVal} (h : s.stk = r :: rest) :
    execReturnFromSubroutine s = finish ((s.setStk rest).setPc (entryToPc r)) := by
  simp only [execReturnFromSubroutine, h]

/-- The draw request of a sprite in range. -/
def drawAction (x y : RegIdx) (n : RowCount) (s : State) : DrawAction :=
  ⟨(s.getV x, s.getV y), (List.range n.val).map fun r => expand (s.mem.read (s.ix.toNat + r))⟩

theorem execDrawSprite_inRange {s : State} (x y : RegIdx) {n : RowCount}
    (h : n.val = 0 ∨ s.ix.toNat + n.val ≤ 4096) :
    execDrawSprite x y n s = emitDraw (drawAction x y n s) s := by
  simp only [execDrawSprite, readRows_ok (m := s.mem) (ix := s.ix) (r := 0) (k := n.val) (by omega), drawAction,
    List.range_eq_range']

theorem execDrawSprite_outOfRange {s : State} (x y : RegIdx) {n : RowCount} (hn : n.val ≠ 0)
    (h : 4096 < s.ix.toNat + n.val) :
    execDrawSprite x y n s = raise (.spriteOutOfRange (max s.ix.toNat 4096)) s := by
  simp only [execDrawSprite, readRows_error (m := s.mem) (ix := s.ix) (r := 0) (k := n.val) hn (by omega), Nat.add_zero]

/-! ### Inversion -/

/-- Everything an execution can do: what it makes of the state before its record, and the record. -/
inductive Executes (s : State) : Instr → State → StepRecord → Prop where
  | clearScreen : Executes s .clearScreen s ⟨.noEffect, none⟩
  | jump (a) : Executes s (.jump a) (s.setPc (zextPc a)) ⟨.noEffect, none⟩
  | call (a) (h : s.stackDepth ≠ some s.stk.length) :
      Executes s (.callSubroutine a) ((s.push (pcToEntry (pcIncrement s.pc))).setPc (zextPc a)) ⟨.noEffect, none⟩
  | overflow (a) (h : s.stackDepth = some s.stk.length) :
      Executes s (.callSubroutine a) s ⟨.error .stackOverflow, none⟩
  | setRegister (x nn) : Executes s (.setRegisterImmediate x nn) (s.setV x (immediate nn)) ⟨.noEffect, none⟩
  | addImmediate (x nn) :
      Executes s (.addImmediateToRegister x nn) (s.setV x (addReg (s.getV x) (immediate nn))) ⟨.noEffect, none⟩
  | setIndex (a) : Executes s (.setIndexImmediate a) (s.setIx (zextIx a)) ⟨.noEffect, none⟩
  | draw (x y n) (h : n.val = 0 ∨ s.ix.toNat + n.val ≤ 4096) :
      Executes s (.drawSprite x y n) s ⟨.draw (drawAction x y n s), none⟩
  | outOfRange (x y) (n : RowCount) (hn : n.val ≠ 0) (h : 4096 < s.ix.toNat + n.val) :
      Executes s (.drawSprite x y n) s ⟨.error (.spriteOutOfRange (max s.ix.toNat 4096)), none⟩
  | ret (r rest) (h : s.stk = r :: rest) :
      Executes s .returnFromSubroutine ((s.setStk rest).setPc (entryToPc r)) ⟨.noEffect, none⟩
  | underflow (h : s.stk = []) : Executes s .returnFromSubroutine s ⟨.error .stackUnderflow, none⟩

/-- `exec` always answers a next state, and it is one of the cases of `Executes`. -/
theorem exec_cases (i : Instr) (s : State) : ∃ u r, exec i s = .next (u.record r) ∧ Executes s i u r := by
  cases i with
  | clearScreen => exact ⟨_, _, rfl, .clearScreen⟩
  | jump a => exact ⟨_, _, rfl, .jump a⟩
  | callSubroutine a =>
    by_cases h : s.stackDepth = some s.stk.length
    · exact ⟨_, _, execCallSubroutine_full a h, .overflow a h⟩
    · exact ⟨_, _, execCallSubroutine_room a h, .call a h⟩
  | setRegisterImmediate x nn => exact ⟨_, _, rfl, .setRegister x nn⟩
  | addImmediateToRegister x nn => exact ⟨_, _, rfl, .addImmediate x nn⟩
  | setIndexImmediate a => exact ⟨_, _, rfl, .setIndex a⟩
  | drawSprite x y n =>
    by_cases h : n.val = 0 ∨ s.ix.toNat + n.val ≤ 4096
    · exact ⟨_, _, execDrawSprite_inRange x y h, .draw x y n h⟩
    · exact ⟨_, _, execDrawSprite_outOfRange x y (by omega) (by omega), .outOfRange x y n (by omega) (by omega)⟩
  | returnFromSubroutine =>
    cases h : s.stk with
    | nil => exact ⟨_, _, execReturnFromSubroutine_nil h, .underflow h⟩
    | cons r rest => exact ⟨_, _, execReturnFromSubroutine_cons h, .ret r rest h⟩

theorem exec_next {i : Instr} {s t : State} (h : exec i s = .next t) :
    ∃ u r, t = u.record r ∧ Executes s i u r := by
  obtain ⟨u, r, h1, h2⟩ := exec_cases i s
  rw [h] at h1
  cases h1
  exact ⟨u, r, rfl, h2⟩

theorem step_of_decode {s : State} {w : Word} {i : Instr} (hf : fetchRead s.mem s.pc = some w)
    (hd : decode w = .ok i) : step s = exec i s.advancePc := by
  simp only [step, hf, hd]

/-- A step is a skipped fetch, a skipped word, or an execution; each in the advanced state. -/
theorem step_cases (s : State) :
    (fetchRead s.mem s.pc = none ∧
      step s = .next (s.advancePc.record ⟨.noEffect, some (.fetchOutOfRange s.pc)⟩)) ∨
    (∃ w f, fetchRead s.mem s.pc = some w ∧ decode w = .error f ∧
      step s = .next (s.advancePc.record ⟨.noEffect, some f⟩)) ∨
    (∃ w i, fetchRead s.mem s.pc = some w ∧ decode w = .ok i ∧ step s = exec i s.advancePc) := by
  cases hf : fetchRead s.mem s.pc with
  | none => exact .inl ⟨rfl, by simp only [step, hf]; rfl⟩
  | some w =>
    cases hd : decode w with
    | error f => exact .inr (.inl ⟨w, f, rfl, hd, by simp only [step, hf, hd]; rfl⟩)
    | ok i => exact .inr (.inr ⟨w, i, rfl, hd, step_of_decode hf hd⟩)

end Machine

end Sys2Proof
end

