-- ==== Sys2Proof/Tests/Slice0.lean ====
section
/-! SUPPORT. Tests: words written out from the encodings, one-step vectors from 95_test_vectors.md and the
rules' own examples, and for each obligation with hypotheses a witness that meets them. -/

namespace Sys2Proof.Tests

open Sys2Proof.Machine

/-- A small state. -/
def at_ (pc : PcVal) (ix : IxVal) (stk : List StackVal) (mem : Memory) : State :=
  { State.reset with pc := pc, ix := ix, stk := stk, mem := mem }

/-- The next state, if there is one. -/
def nextOf (o : Host.Outcome State Fault Refusal) : Option State :=
  match o with
  | .next s => some s
  | .fault _ => none
  | .refused _ => none

/-- The last record of the next state. -/
def recordOf (o : Host.Outcome State Fault Refusal) : Option StepRecord := (nextOf o).bind (·.history.head?)

/-! ### Well-formedness -/

/-- 30_encoding.md R68: no encoding, so refused. -/
theorem test_wellFormed_refuses_return : Instr.wellFormed .returnFromSubroutine = false := by decide
theorem test_wellFormed_accepts_call : Instr.wellFormed (.callSubroutine 0xFFF#12) = true := by decide

/-! ### Decoding: bits 15..0 written out from 30_encoding.md R62 and R64 -/

theorem test_decode_cls : decode 0b0000000011100000#16 = .ok .clearScreen := by decide
theorem test_decode_jp : decode 0b0001101010111100#16 = .ok (.jump 0xABC#12) := by decide
theorem test_decode_call : decode 0b0010001100000001#16 = .ok (.callSubroutine 0x301#12) := by decide
theorem test_decode_ld : decode 0b0110101000111100#16 = .ok (.setRegisterImmediate 10 0x3C#8) := by decide
theorem test_decode_add : decode 0b0111111100000001#16 = .ok (.addImmediateToRegister 15 0x01#8) := by decide
theorem test_decode_ldi : decode 0b1010001000010000#16 = .ok (.setIndexImmediate 0x210#12) := by decide
theorem test_decode_drw : decode 0b1101000100100101#16 = .ok (.drawSprite 1 2 5) := by decide
/-- 95_test_vectors.md 2.1: 0x00EE is not RET. -/
theorem test_decode_00ee : decode 0x00EE#16 = .error (.unknownOpcode 0x00EE#16) := by decide
theorem test_decode_ffff : decode 0xFFFF#16 = .error (.unknownOpcode 0xFFFF#16) := by decide
theorem test_encode_drw : encode (.drawSprite 1 2 5) = some 0xD125#16 := by decide
theorem test_encode_ret : encode .returnFromSubroutine = none := by decide
theorem test_decodeTableWord : decodeTableWord 16 0x7A01 = some (.addImmediateToRegister 10 0x01#8) := by decide

/-! ### One step each: 95_test_vectors.md -/

/-- D1: every part of the state but `pc` and the history is as before. -/
theorem test_cls : nextOf (step (at_ 0x200#16 0#16 [] [(0x201, 0xE0#8)])) =
    some { at_ 0x202#16 0#16 [] [(0x201, 0xE0#8)] with history := [⟨.noEffect, none⟩] } := by decide
/-- C3: an odd target is taken. -/
theorem test_jp_odd :
    (nextOf (step (at_ 0x200#16 0#16 [] [(0x200, 0x12#8), (0x201, 0x01#8)]))).map (·.pc) = some 0x201#16 := by decide
/-- F2: a fetch at an odd `pc`, of an unknown opcode. -/
theorem test_odd_fetch : recordOf (step (at_ 0x201#16 0#16 [] [(0x201, 0x34#8), (0x202, 0x56#8)])) =
    some ⟨.noEffect, some (.unknownOpcode 0x3456#16)⟩ := by decide
/-- F3: the last fetch in range. -/
theorem test_ld_last : (nextOf (step (at_ 0xFFE#16 0#16 [] [(0xFFE, 0x60#8), (0xFFF, 0x11#8)]))).map
    (fun t => (t.getV 0, t.pc)) = some (0x11#8, 0x1000#16) := by decide
/-- F4: one byte in range is no fetch. -/
theorem test_fetch_fff : recordOf (step (at_ 0xFFF#16 0#16 [] [(0xFFF, 0x60#8)])) =
    some ⟨.noEffect, some (.fetchOutOfRange 0xFFF#16)⟩ := by decide
/-- F7: the 16-bit wrap. -/
theorem test_fetch_wrap : (nextOf (step (at_ 0xFFFF#16 0#16 [] []))).map (·.pc) = some 0x0001#16 := by decide
/-- C6: the call site plus 4 goes on top. -/
theorem test_call : (nextOf (step (at_ 0x300#16 0#16 [0x204#16] [(0x300, 0x24#8)]))).map
    (fun t => (t.stk, t.pc)) = some ([0x304#16, 0x204#16], 0x400#16) := by decide
/-- C8: a finite build's full stack. -/
theorem test_call_full : (nextOf (step { at_ 0x300#16 0#16 [0x204#16] [(0x300, 0x24#8)] with stackDepth := some 1 })).map
    (fun t => (t.stk, t.pc, t.history)) =
      some ([0x204#16], 0x302#16, [⟨.error .stackOverflow, none⟩]) := by decide
/-- C9. -/
theorem test_ret : (nextOf (exec .returnFromSubroutine (at_ 0x302#16 0#16 [0x204#16] []))).map
    (fun t => (t.stk, t.pc)) = some ([], 0x204#16) := by decide
/-- C10. -/
theorem test_ret_empty : (nextOf (exec .returnFromSubroutine (at_ 0x304#16 0#16 [] []))).map
    (fun t => (t.stk, t.pc, t.history)) = some ([], 0x304#16, [⟨.error .stackUnderflow, none⟩]) := by decide
/-- A1. -/
theorem test_ld : (nextOf (step (at_ 0x200#16 0#16 [] [(0x200, 0x6A#8), (0x201, 0x3C#8)]))).map
    (fun t => (t.getV 10, t.pc)) = some (0x3C#8, 0x202#16) := by decide
/-- A4: V15 wraps and gets no flag. -/
theorem test_add_v15 : (nextOf (exec (.addImmediateToRegister 15 0x01#8) (State.reset.setV 15 0xFF#8))).map
    (·.v) = some State.reset.v := by decide
/-- A8: V15 is left alone. -/
theorem test_add_no_flag : (nextOf (exec (.addImmediateToRegister 1 0xF5#8)
    ((State.reset.setV 1 0x10#8).setV 15 0x77#8))).map (fun t => (t.getV 1, t.getV 15)) =
      some (0x05#8, 0x77#8) := by decide
/-- A10. -/
theorem test_ldi : (nextOf (step (at_ 0x200#16 0#16 [] [(0x200, 0xAF#8), (0x201, 0xFF#8)]))).map (·.ix) =
    some 0x0FFF#16 := by decide
/-- D2: origin (5, 0), bit 7 leftmost. -/
theorem test_drw : recordOf (exec (.drawSprite 0 1 1) ((at_ 0x202#16 0x210#16 [] [(0x210, 0x80#8)]).setV 0 5#8)) =
    some ⟨.draw ⟨(5#8, 0#8), [#v[true, false, false, false, false, false, false, false]]⟩, none⟩ := by decide
/-- D7: the second row is out of range. -/
theorem test_drw_out : recordOf (exec (.drawSprite 0 0 2) (at_ 0x202#16 0xFFF#16 [] [])) =
    some ⟨.error (.spriteOutOfRange 0x1000), none⟩ := by decide
/-- W5. -/
theorem test_expand : expand 0b10110000#8 = #v[true, false, true, true, false, false, false, false] := by decide

/-! ### Load and reset -/

/-- L3: stale bytes are kept. -/
theorem test_load_stale : (nextOf (load [9#8] (at_ 0x345#16 0#16 [0x204#16] [(0x200, 1#8), (0x201, 2#8)]))).map
    (fun t => (t.mem, t.pc, t.stk)) = some ([(0x200, 9#8), (0x201, 2#8)], 0x200#16, [0x204#16]) := by decide
/-- A zero byte written is not listed. -/
theorem test_load_zero : (nextOf (load [0#8] (at_ 0x345#16 0#16 [] [(0x200, 1#8), (0x201, 2#8)]))).map (·.mem) =
    some [(0x201, 2#8)] := by decide
/-- L6. -/
theorem test_step_reset : (nextOf (step State.reset)).map (fun t => (t.pc, t.history)) =
    some (0x202#16, [⟨.noEffect, some (.unknownOpcode 0x0000#16)⟩]) := by decide
theorem test_withFetchWord : (nextOf (step (State.reset.withFetchWord 16 0x6A3C))).map (·.getV 10) = some 0x3C#8 := by
  decide
/-- Where `pc` cannot fetch, the word goes to 0x200. -/
theorem test_withFetchWord_far :
    (nextOf (step ((at_ 0x1000#16 0#16 [] []).withFetchWord 16 0xA210))).map (fun t => (t.ix, t.pc)) =
      some (0x210#16, 0x202#16) := by decide
/-- For the first word after reset, `withFetchWord` is the Load of its two bytes. -/
theorem test_withFetchWord_is_load :
    nextOf (load [0x6A#8, 0x3C#8] State.reset) = some (State.reset.withFetchWord 16 0x6A3C) := by decide

/-! ### Witnesses: concrete values that meet the hypotheses of each obligation -/

theorem witness_UnloadedRunSkipsZeroWords : 0x200 + 2 * 0 ≤ 0x1000 ∧ 0x200 + 2 * 1792 ≤ 0x1000 := by decide

theorem witness_ZeroWordsAreSkippedUpToTheEnd :
    (∀ a, (at_ 0xFFC#16 0#16 [] [(0x200, 0x60#8)]).pc.toNat ≤ a → a < 4096 →
      (at_ 0xFFC#16 0#16 [] [(0x200, 0x60#8)]).mem.read a = 0x00#8) ∧
    (at_ 0xFFC#16 0#16 [] [(0x200, 0x60#8)]).pc.toNat + 2 * 2 ≤ 0x1000 := by
  refine ⟨fun a ha _ => ?_, by decide⟩
  have h : 0xFFC ≤ a := ha
  have hne : a ≠ 0x200 := by omega
  simp [at_, Memory.read, hne, unlistedByte]

theorem witness_DecodeFollowsTheOpcodeMap :
    (0x00E0#16 : Word).toNat = 0x00E0 ∧ FormatNNN 0x1 0x1FFF#16 0xFFF#12 ∧ FormatNNN 0x2 0x2000#16 0x000#12 ∧
      FormatXNN 0x6 0x6F00#16 15 0x00#8 ∧ FormatXNN 0x7 0x70FF#16 0 0xFF#8 ∧ FormatNNN 0xA 0xAFFF#16 0xFFF#12 ∧
      FormatXYN 0xD 0xDF0F#16 15 0 15 := by
  unfold FormatNNN FormatXNN FormatXYN
  decide

theorem witness_DecodeFollowsTheOpcodeMap_illegal :
    IllegalWord 0x0000#16 ∧ IllegalWord 0x00E1#16 ∧ IllegalWord 0xFFFF#16 := by
  unfold IllegalWord
  decide

theorem witness_DecodableWordsMatchExactlyOneRow :
    (0xF000#16, 0xD000#16) ∈ opcodeRows ∧ (0xDFFF#16 : Word) &&& 0xF000#16 = 0xD000#16 ∧
      (0xFFFF#16, 0x00E0#16) ∈ opcodeRows ∧ (0x00E0#16 : Word) &&& 0xFFFF#16 = 0x00E0#16 := by decide

theorem witness_EncodeAndDecodeAgree :
    Instr.wellFormed (.drawSprite 15 0 15) = true ∧ decode 0xDF0F#16 = .ok (.drawSprite 15 0 15) := by decide

theorem witness_FetchReadsTwoBytesBigEndian :
    (0xFFE#16 : Word).toNat + 1 < 4096 ∧ 4096 ≤ (0xFFF#16 : Word).toNat + 1 := by decide

/-- Memory holding ADD VF, FF in the last word. -/
def addLast : State := at_ 0xFFE#16 0#16 [] [(0xFFE, 0x7F#8), (0xFFF, 0xFF#8)]

theorem witness_StepRunsTheDecodedInstruction : fetchRead addLast.mem addLast.pc = some 0x7FFF#16 ∧
    decode 0x7FFF#16 = .ok (.addImmediateToRegister 15 0xFF#8) := by decide

theorem witness_UnknownOpcodeIsSkipped :
    fetchRead State.reset.mem State.reset.pc = some 0x0000#16 ∧ IllegalWord 0x0000#16 := by
  unfold IllegalWord
  decide

theorem witness_FetchPastMemoryIsSkipped : 0xFFF ≤ (at_ 0xFFF#16 0#16 [] []).pc.toNat ∧
    0xFFF ≤ (at_ 0xFFFF#16 0#16 [] []).pc.toNat := by decide

/-- A step that errs, for the statements about errors. -/
theorem witness_StepsNeverHaltOrBlock : ∃ t r, step (at_ 0xFFFF#16 0#16 [] []) = .next t ∧
    PutOut (at_ 0xFFFF#16 0#16 [] []) t r ∧ r.errs :=
  ⟨_, ⟨.noEffect, some (.fetchOutOfRange 0xFFFF#16)⟩, rfl, rfl, .inl (by decide)⟩

theorem witness_EveryErrorIsPrecise : ∃ t r, step (at_ 0x200#16 0xFFF#16 [] [(0x200, 0xD0#8), (0x201, 0x02#8)]) = .next t ∧
    PutOut (at_ 0x200#16 0xFFF#16 [] [(0x200, 0xD0#8), (0x201, 0x02#8)]) t r ∧ r.errs :=
  ⟨_, ⟨.error (.spriteOutOfRange 0x1000), none⟩, rfl, rfl, .inr ⟨_, rfl⟩⟩

theorem witness_SetRegisterWritesOnlyVx : FormatXNN 0x6 0x6FFF#16 15 0xFF#8 ∧ FormatXNN 0x6 0x6000#16 0 0x00#8 := by
  unfold FormatXNN
  decide

theorem witness_AddImmediateWrapsIntoVxOnly :
    FormatXNN 0x7 0x7FFF#16 15 0xFF#8 ∧ FormatXNN 0x7 0x7000#16 0 0x00#8 := by
  unfold FormatXNN
  decide

theorem witness_SetIndexLoadsTheTwelveBitField :
    FormatNNN 0xA 0xAFFF#16 0xFFF#12 ∧ (0xFF1#12 : Addr12).toNat + (15 : RowCount).val ≤ 4096 := by
  unfold FormatNNN
  decide

theorem witness_JumpOverridesThePc : FormatNNN 0x1 0x1FFF#16 0xFFF#12 ∧ FormatNNN 0x1 0x1000#16 0x000#12 := by
  unfold FormatNNN
  decide

/-- A finite build with one free entry. -/
def oneFree : State := { at_ 0xFFE#16 0#16 [0x204#16] [(0xFFE, 0x22#8)] with stackDepth := some 2 }

theorem witness_CallPushesAndJumps :
    FormatNNN 0x2 0x2200#16 0x200#12 ∧ oneFree.stackDepth ≠ some oneFree.stk.length ∧
      State.reset.stackDepth ≠ some State.reset.stk.length := by
  unfold FormatNNN
  decide

theorem witness_CallOnAFullStackErrs :
    { State.reset with stackDepth := some 0 }.stackDepth = some State.reset.stk.length := by decide

theorem witness_ReturnPopsIntoThePc : oneFree.stk = 0x204#16 :: [] := by decide

theorem witness_ReturnOnAnEmptyStackErrs : State.reset.stk = [] := by decide

theorem witness_CallThenReturnResumesAtSitePlusFour :
    fetchRead oneFree.mem oneFree.pc = some 0x2200#16 ∧ FormatNNN 0x2 0x2200#16 0x200#12 ∧
      oneFree.stackDepth ≠ some oneFree.stk.length := by
  unfold FormatNNN
  decide

theorem witness_DrawHandsOverOriginAndRows :
    FormatXYN 0xD 0xD00F#16 0 0 15 ∧ (at_ 0x200#16 0xFF1#16 [] []).ix.toNat + (15 : RowCount).val ≤ 4096 ∧
      FormatXYN 0xD 0xDFF0#16 15 15 0 ∧ (0 : RowCount).val = 0 := by
  unfold FormatXYN
  decide

theorem witness_DrawPastMemoryErrs :
    (15 : RowCount).val ≠ 0 ∧ 4096 < (at_ 0x200#16 0xFF2#16 [] []).ix.toNat + (15 : RowCount).val := by decide

theorem witness_OnlyRegisterInstructionsWriteRegisters :
    ∃ t, step addLast = .next t ∧ t.getV 15 ≠ addLast.getV 15 := ⟨_, rfl, by decide⟩

theorem witness_OnlyRegisterInstructionsWriteRegisters_exec :
    ∃ t, exec (.setRegisterImmediate 0 1#8) State.reset = .next t ∧ t.getV 0 ≠ State.reset.getV 0 :=
  ⟨_, rfl, by decide⟩

theorem witness_NoInstructionWritesMemory :
    (∃ t, exec (.jump 0xFFF#12) State.reset = .next t) ∧ ∃ t, step addLast = .next t := ⟨⟨_, rfl⟩, _, rfl⟩

theorem witness_OnlySetIndexWritesTheIndex :
    (∃ t, exec (.setIndexImmediate 0xFFF#12) State.reset = .next t ∧ t.ix ≠ State.reset.ix) ∧
      ∃ t, step (at_ 0x200#16 0#16 [] [(0x200, 0xAF#8), (0x201, 0xFF#8)]) = .next t ∧ t.ix ≠ 0#16 :=
  ⟨⟨_, rfl, by decide⟩, _, rfl, by decide⟩

theorem witness_NextPcIsWhatTheMuxSelects_jump :
    fetchRead (at_ 0x200#16 0#16 [] [(0x200, 0x1F#8), (0x201, 0xFF#8)]).mem 0x200#16 = some 0x1FFF#16 ∧
      FormatNNN 0x1 0x1FFF#16 0xFFF#12 := by
  unfold FormatNNN
  decide

theorem witness_NextPcIsWhatTheMuxSelects_call :
    (∃ t, step oneFree = .next t) ∧ fetchRead oneFree.mem oneFree.pc = some 0x2200#16 ∧
      FormatNNN 0x2 0x2200#16 0x200#12 ∧ oneFree.stackDepth ≠ some oneFree.stk.length :=
  ⟨⟨_, rfl⟩, by decide, by unfold FormatNNN; decide, by decide⟩

/-- A finite build with no free entry. -/
def full : State := { at_ 0xFFE#16 0#16 [0x204#16] [(0xFFE, 0x22#8)] with stackDepth := some 1 }

theorem witness_NextPcIsWhatTheMuxSelects_full :
    (∃ t, step full = .next t) ∧ fetchRead full.mem full.pc = some 0x2200#16 ∧
      full.stackDepth = some full.stk.length := ⟨⟨_, rfl⟩, by decide, by decide⟩

theorem witness_NextPcIsWhatTheMuxSelects_other :
    ∀ w, fetchRead addLast.mem addLast.pc = some w → w.toNat / 4096 ≠ 0x1 ∧ w.toNat / 4096 ≠ 0x2 := by
  intro w h
  rw [show fetchRead addLast.mem addLast.pc = some 0x7FFF#16 by decide] at h
  cases h
  decide

theorem witness_OnlyCallAndReturnTouchTheStack :
    (∃ t, exec .returnFromSubroutine oneFree = .next t ∧ t.stk ≠ oneFree.stk) ∧
      ∃ t, step oneFree = .next t ∧ t.stk ≠ oneFree.stk := ⟨⟨_, rfl, by decide⟩, _, rfl, by decide⟩

theorem witness_DrawRequestsOnlyFromDrawAndNeverReadBack :
    ∃ t r d, step (at_ 0x200#16 0xFFF#16 [] [(0x200, 0xD0#8), (0x201, 0x01#8)]) = .next t ∧
      PutOut (at_ 0x200#16 0xFFF#16 [] [(0x200, 0xD0#8), (0x201, 0x01#8)]) t r ∧ r.result = .draw d :=
  ⟨_, _, _, rfl, rfl, rfl⟩

/-- The invariant at its bounds: `ix` = 0xFFF, a full stack, the highest entry. -/
theorem inv_full : State.Inv { full with ix := 0xFFF#16, stk := [0x1002#16] } :=
  ⟨by decide, by decide, by simp [full], by simp⟩

theorem witness_StepKeepsTheInvariant :
    ∃ s t, State.Inv s ∧ step s = .next t := ⟨_, _, inv_full, rfl⟩

theorem witness_StepErrorsAreTheReachableOnes :
    ∃ s t r, State.Inv s ∧ step s = .next t ∧ PutOut s t r ∧ r.result = .error .stackOverflow :=
  ⟨_, _, _, inv_full, rfl, rfl, rfl⟩

theorem witness_HostRunsKeepTheInvariantAndTheRecords :
    ∃ s t, State.Inv s ∧ runOps [.step, .load [0x60#8, 0x05#8], .step] s = .next t := ⟨_, _, inv_full, rfl⟩

theorem witness_HostRuns_clean :
    ∃ t, runOps [.load [0x60#8, 0x05#8], .step] (at_ 0x300#16 0#16 [] []) = .next t ∧ t.Clean := by
  refine ⟨_, rfl, ?_⟩
  intro r hr
  rw [List.mem_singleton.1 hr]
  rintro (h | ⟨e, h⟩)
  · exact h rfl
  · cases h

theorem witness_LoadCopiesVerbatimAndSetsPc :
    full.mem.wf = true ∧ (List.replicate 3584 0xFF#8).length ≤ 3584 ∧ ([] : List Byte).length ≤ 3584 :=
  ⟨by decide, List.length_replicate.le, by decide⟩

theorem witness_OverlongLoadHasNoTransition : 3584 < (List.replicate 3585 0xFF#8).length := by
  rw [List.length_replicate]
  decide

theorem witness_StepAfterLoadRunsTheLoadedWord :
    full.mem.wf = true ∧ (0x6A#8 :: 0x3C#8 :: ([] : List Byte)).length ≤ 3584 ∧
      (0x6A3C#16 : Word).toNat = 256 * (0x6A#8 : Byte).toNat + (0x3C#8 : Byte).toNat ∧
      decode 0x6A3C#16 = .ok (.setRegisterImmediate 10 0x3C#8) := by decide

theorem witness_MemoryHoldsTheLatestLoad :
    full.mem.wf = true ∧ (∃ t, runOps [.load [1#8, 2#8], .step, .load [3#8]] full = .next t) ∧
      ∃ t, runOps [.load [1#8, 2#8], .step, .load [3#8]] State.reset = .next t :=
  ⟨by decide, ⟨_, rfl⟩, _, rfl⟩

theorem witness_LoadRefinesTheTuple : addLast.mem.wf = true ∧ [0x12#8, 0x00#8].length ≤ 3584 := by decide

end Sys2Proof.Tests
end

section
/-! ### Memory along a run (20_memory.md R48, R49, R54): a step leaves memory alone, a Load writes exactly the
addresses it covers, so memory is what the Loads of a run put there. -/

namespace Sys2Proof.Machine

/-! #### A step -/

theorem Executes.mem_eq {s u : State} {i : Instr} {r : StepRecord} (h : Executes s i u r) : u.mem = s.mem := by
  cases h <;> rfl

theorem exec_mem {i : Instr} {s t : State} (h : exec i s = .next t) : t.mem = s.mem := by
  obtain ⟨u, r, rfl, he⟩ := exec_next h
  exact he.mem_eq

theorem step_mem {s t : State} (h : step s = .next t) : t.mem = s.mem := by
  obtain ⟨-, hs⟩ | ⟨w, f, -, -, hs⟩ | ⟨w, i, -, -, hs⟩ := step_cases s <;> rw [hs] at h
  case inl => cases h; rfl
  case inr.inl => cases h; rfl
  case inr.inr => exact (exec_mem h).trans (State.advancePc_mem s)

/-! #### A Load -/

theorem load_mem {bs : List Byte} {s t : State} (h : load bs s = .next t) :
    t.mem = s.mem.writeBytes 0x200 bs := by
  obtain ⟨-, rfl⟩ := load_next h
  rfl

theorem load_mem_wf {bs : List Byte} {s t : State} (hwf : s.mem.wf = true) (h : load bs s = .next t) :
    t.mem.wf = true := by
  obtain ⟨hlen, -⟩ := load_next h
  rw [load_mem h]
  exact Memory.wf_writeBytes hwf (show 0x200 + bs.length ≤ 4096 by omega)

/-- After a Load an address reads the byte put there, or what it read before if it is not covered. -/
theorem read_load {bs : List Byte} {s t : State} (hwf : s.mem.wf = true) (h : load bs s = .next t) (a : Nat) :
    t.mem.read a = (loadCovers bs a).getD (s.mem.read a) := by
  obtain ⟨hlen, -⟩ := load_next h
  rw [load_mem h, Memory.read_writeBytes hwf (show 0x200 + bs.length ≤ 4096 by omega), loadCovers]
  split <;> rfl

/-! #### A sequence of host operations -/

/-- A sequence that has a transition begins with an operation that has one. -/
theorem runOps_cons_next {o : HostOp} {os : List HostOp} {s t : State} (h : runOps (o :: os) s = .next t) :
    ∃ u, hostOp o s = .next u ∧ runOps os u = .next t := by
  cases ho : hostOp o s with
  | next u => exact ⟨u, rfl, (runOps_cons_of_next ho).symm.trans h⟩
  | fault f => cases f
  | refused r => simp [runOps, ho] at h

theorem read_runOps {ops : List HostOp} {s t : State} (hwf : s.mem.wf = true) (h : runOps ops s = .next t)
    (a : Nat) : t.mem.read a = latestLoad ops a (s.mem.read a) := by
  induction ops generalizing s with
  | nil => cases h; rfl
  | cons o os ih =>
    obtain ⟨u, hop, hrest⟩ := runOps_cons_next h
    cases o with
    | load bs => rw [ih (load_mem_wf hwf hop) hrest, read_load hwf hop, latestLoad]
    | step =>
      have hmem : u.mem = s.mem := step_mem hop
      rw [ih (hmem ▸ hwf) hrest, hmem, latestLoad]

/-- Settles O39, by induction on the sequence of host operations: a Load overwrites exactly the bytes it covers
and keeps memory canonical, a step changes no byte. -/
theorem memoryHoldsTheLatestLoad : Obligations.MemoryHoldsTheLatestLoad :=
  ⟨fun _ops _s _t a hwf h => read_runOps hwf h a, fun _ops _t a h => read_runOps rfl h a⟩

end Sys2Proof.Machine
end

section
/-! ### The opcode map (30_encoding.md R61, R62, R64): a word in a format has that format's opcode and operands
as its fields, so each row of the map says what `decode` answers. -/

namespace Sys2Proof.Machine

section
variable {op : Nat} {w : Word} {a : Addr12} {x y : RegIdx} {nn : Byte} {n : RowCount}

/-! #### The fields of a word in a format -/

theorem FormatNNN.op_eq (h : FormatNNN op w a) : w.toNat / 4096 = op := by
  unfold FormatNNN at h
  omega

theorem FormatNNN.fieldNNN_eq (h : FormatNNN op w a) : fieldNNN w = a := by
  unfold FormatNNN at h
  apply BitVec.eq_of_toNat_eq
  rw [fieldNNN_toNat]
  omega

theorem FormatXNN.op_eq (h : FormatXNN op w x nn) : w.toNat / 4096 = op := by
  unfold FormatXNN at h
  have hx := Laws.regIdx_lt x
  omega

theorem FormatXNN.fieldX_eq (h : FormatXNN op w x nn) : fieldX w = x := by
  unfold FormatXNN at h
  have hx := Laws.regIdx_lt x
  apply Fin.ext
  rw [fieldX_val]
  omega

theorem FormatXNN.fieldNN_eq (h : FormatXNN op w x nn) : fieldNN w = nn := by
  unfold FormatXNN at h
  apply BitVec.eq_of_toNat_eq
  rw [fieldNN_toNat]
  omega

theorem FormatXYN.op_eq (h : FormatXYN op w x y n) : w.toNat / 4096 = op := by
  unfold FormatXYN at h
  have hx := Laws.regIdx_lt x
  have hy := Laws.regIdx_lt y
  have hn := Laws.rowCount_le n
  omega

theorem FormatXYN.fieldX_eq (h : FormatXYN op w x y n) : fieldX w = x := by
  unfold FormatXYN at h
  have hx := Laws.regIdx_lt x
  have hy := Laws.regIdx_lt y
  have hn := Laws.rowCount_le n
  apply Fin.ext
  rw [fieldX_val]
  omega

theorem FormatXYN.fieldY_eq (h : FormatXYN op w x y n) : fieldY w = y := by
  unfold FormatXYN at h
  have hy := Laws.regIdx_lt y
  have hn := Laws.rowCount_le n
  apply Fin.ext
  rw [fieldY_val]
  omega

theorem FormatXYN.fieldN_eq (h : FormatXYN op w x y n) : fieldN w = n := by
  unfold FormatXYN at h
  have hn := Laws.rowCount_le n
  apply Fin.ext
  rw [fieldN_val]
  omega

/-! #### The rows of the map -/

/-- 0x00E0 has opcode 0, so it is in none of the other rows. -/
theorem toNat_ne_clearScreen (h : w.toNat / 4096 = op) (hop : op ≠ 0) : w.toNat ≠ 0x00E0 := by
  omega

theorem decode_clearScreen (h : w.toNat = 0x00E0) : decode w = .ok .clearScreen := by
  rw [decode_eq, if_pos h]

theorem decode_jump (h : FormatNNN 0x1 w a) : decode w = .ok (.jump a) := by
  have hne := toNat_ne_clearScreen h.op_eq (by decide)
  simp [decode_eq, hne, h.op_eq, h.fieldNNN_eq]

theorem decode_callSubroutine (h : FormatNNN 0x2 w a) : decode w = .ok (.callSubroutine a) := by
  have hne := toNat_ne_clearScreen h.op_eq (by decide)
  simp [decode_eq, hne, h.op_eq, h.fieldNNN_eq]

theorem decode_setRegisterImmediate (h : FormatXNN 0x6 w x nn) :
    decode w = .ok (.setRegisterImmediate x nn) := by
  have hne := toNat_ne_clearScreen h.op_eq (by decide)
  simp [decode_eq, hne, h.op_eq, h.fieldX_eq, h.fieldNN_eq]

theorem decode_addImmediateToRegister (h : FormatXNN 0x7 w x nn) :
    decode w = .ok (.addImmediateToRegister x nn) := by
  have hne := toNat_ne_clearScreen h.op_eq (by decide)
  simp [decode_eq, hne, h.op_eq, h.fieldX_eq, h.fieldNN_eq]

theorem decode_setIndexImmediate (h : FormatNNN 0xA w a) : decode w = .ok (.setIndexImmediate a) := by
  have hne := toNat_ne_clearScreen h.op_eq (by decide)
  simp [decode_eq, hne, h.op_eq, h.fieldNNN_eq]

theorem decode_drawSprite (h : FormatXYN 0xD w x y n) : decode w = .ok (.drawSprite x y n) := by
  have hne := toNat_ne_clearScreen h.op_eq (by decide)
  simp [decode_eq, hne, h.op_eq, h.fieldX_eq, h.fieldY_eq, h.fieldN_eq]

theorem decode_illegalWord (h : IllegalWord w) : decode w = .error (.unknownOpcode w) := by
  obtain ⟨hne, hop⟩ := h
  simp only [List.mem_cons, List.not_mem_nil, or_false, not_or] at hop
  obtain ⟨h1, h2, h6, h7, hA, hD⟩ := hop
  simp only [decode_eq, hne, h1, h2, h6, h7, hA, hD, if_false]

end

/-- Settles O3: each row of the map from the fields of a word in its format, and the words in no row last. -/
theorem decodeFollowsTheOpcodeMap : Obligations.DecodeFollowsTheOpcodeMap := fun _ =>
  ⟨decode_clearScreen, fun _ => decode_jump, fun _ => decode_callSubroutine,
    fun _ _ => decode_setRegisterImmediate, fun _ _ => decode_addImmediateToRegister,
    fun _ => decode_setIndexImmediate, fun _ _ _ => decode_drawSprite, decode_illegalWord⟩

end Sys2Proof.Machine
end

section
/-! ### Totality and skipping (40_fetch_step.md R82-R84, R87): every step answers a next state with one record
more, and a step that errs has written nothing but the advance of `pc`. -/

namespace Sys2Proof.Machine

/-! #### The advance of `pc` -/

/-- Where a word was fetched, the advance of `pc` does not wrap. -/
theorem pcIncrement_toNat_of_fetchRead {m : Memory} {a : PcVal} {w : Word} (h : fetchRead m a = some w) :
    (pcIncrement a).toNat = a.toNat + 2 := by
  obtain ⟨hlt, -⟩ := fetchRead_eq_some h
  rw [pcIncrement_toNat]
  omega

theorem pcIncrement_ne (a : PcVal) : pcIncrement a ≠ a := by
  intro h
  have hnat : (a.toNat + 2) % 65536 = a.toNat := by rw [← pcIncrement_toNat, h]
  have hlt := Laws.pcVal_lt a
  omega

/-! #### An execution that errs -/

theorem not_errs_quiet : ¬ quiet.errs := by
  rintro (h | ⟨e, h⟩)
  · exact h rfl
  · cases h

theorem Executes.history_eq {s u : State} {i : Instr} {r : StepRecord} (h : Executes s i u r) :
    u.history = s.history := by
  cases h <;> rfl

/-- An instruction that errs has written nothing: every case that writes puts out a quiet record. -/
theorem Executes.eq_of_errs {s u : State} {i : Instr} {r : StepRecord} (h : Executes s i u r) (hr : r.errs) :
    u = s := by
  cases h with
  | clearScreen | draw | overflow | outOfRange | underflow => rfl
  | jump | call | setRegister | addImmediate | setIndex | ret => exact absurd hr not_errs_quiet

/-! #### A step -/

theorem step_of_decode_error {s : State} {w : Word} {f : DecodeFailure} (hf : fetchRead s.mem s.pc = some w)
    (hd : decode w = .error f) : step s = .next (s.advancePc.record ⟨.noEffect, some f⟩) := by
  simp only [step, hf, hd, decodeFailed]

/-- Every step answers a next state and adds one record; where it errs, nothing but `pc` was written before. -/
theorem step_adds_record (s : State) :
    ∃ u r, step s = .next (u.record r) ∧ u.history = s.history ∧ (r.errs → u = s.advancePc) := by
  obtain ⟨-, hs⟩ | ⟨w, f, -, -, hs⟩ | ⟨w, i, -, -, hs⟩ := step_cases s
  case inl => exact ⟨_, _, hs, rfl, fun _ => rfl⟩
  case inr.inl => exact ⟨_, _, hs, rfl, fun _ => rfl⟩
  case inr.inr =>
    obtain ⟨u, r, hx, he⟩ := exec_cases i s.advancePc
    exact ⟨u, r, hs.trans hx, he.history_eq, he.eq_of_errs⟩

/-- The whole state after a step that errs. -/
theorem step_errs_eq {s t : State} {r : StepRecord} (h : step s = .next t) (hput : PutOut s t r) (hr : r.errs) :
    t = s.advancePc.record r := by
  obtain ⟨u, r', hs, -, hu⟩ := step_adds_record s
  rw [hs] at h
  cases h
  obtain ⟨rfl, -⟩ : r' = r ∧ u.history = s.history := List.cons.inj hput
  rw [hu hr]

/-! #### Any number of steps -/

theorem run_adds_records (k : Nat) (s : State) :
    ∃ t : State, Host.Core.run Sys2Proof.core k s = .next t ∧ t.history.length = s.history.length + k := by
  induction k generalizing s with
  | zero => exact ⟨s, rfl, rfl⟩
  | succ k ih =>
    obtain ⟨u, r, hs, hhist, -⟩ := step_adds_record s
    obtain ⟨t, hrun, hlen⟩ := ih (u.record r)
    refine ⟨t, (run_succ_of_next hs).trans hrun, ?_⟩
    rw [hlen, State.record_history, List.length_cons, hhist]
    omega

/-- Settles O10: the decoder fails on an illegal word, and the step only advances `pc` and records the failure. -/
theorem unknownOpcodeIsSkipped : Obligations.UnknownOpcodeIsSkipped := fun _s _w hf hill =>
  ⟨_, step_of_decode_error hf (decode_illegalWord hill), rfl, pcIncrement_toNat_of_fetchRead hf,
    fun _ => rfl, rfl, rfl, fun _ => rfl, rfl⟩

/-- Settles O12: totality by induction on the number of steps; a step that errs leaves `pc` at its advance. -/
theorem stepsNeverHaltOrBlock : Obligations.StepsNeverHaltOrBlock := by
  refine ⟨run_adds_records, fun s t r h hput hr => ?_⟩
  rw [step_errs_eq h hput hr]
  exact pcIncrement_ne s.pc

end Sys2Proof.Machine
end

section
/-! ### The register-immediate instructions (41_register_immediate.md R100-R102): what each leaves in its
target, and the frame of a register write. -/

namespace Sys2Proof.Machine

section
variable (s : State) (x : RegIdx) (b : RegVal)

/-! #### The meanings -/

theorem exec_setRegisterImmediate (nn : Byte) :
    exec (.setRegisterImmediate x nn) s = .next ((s.setV x nn).record quiet) := by
  rw [← immediate_eq nn]
  rfl

theorem exec_addImmediateToRegister (nn : Byte) :
    exec (.addImmediateToRegister x nn) s = .next ((s.setV x (addReg (s.getV x) nn)).record quiet) := by
  rw [← immediate_eq nn]
  rfl

theorem exec_setIndexImmediate (nnn : Addr12) :
    exec (.setIndexImmediate nnn) s = .next ((s.setIx (zextIx nnn)).record quiet) := rfl

/-! #### A register write that ends quietly -/

theorem getV_setV_record (r : StepRecord) : ((s.setV x b).record r).getV x = b := by
  rw [State.record_getV, State.getV_setV_same]

/-- Nothing but `VX` and the history is written. -/
theorem setV_record_frame :
    SameRegsBut x s ((s.setV x b).record quiet) ∧ PutOut s ((s.setV x b).record quiet) quiet ∧
      ((s.setV x b).record quiet).pc = s.pc ∧ ((s.setV x b).record quiet).ix = s.ix ∧
      ((s.setV x b).record quiet).stk = s.stk ∧ SameMem s ((s.setV x b).record quiet) ∧
      ((s.setV x b).record quiet).stackDepth = s.stackDepth :=
  ⟨fun y hy => s.getV_setV_other x y b hy, rfl, rfl, rfl, rfl, fun _ => rfl, rfl⟩

end

/-! #### A draw in range -/

theorem exec_drawSprite_inRange {s : State} (x y : RegIdx) {n : RowCount}
    (h : n.val = 0 ∨ s.ix.toNat + n.val ≤ 4096) :
    exec (.drawSprite x y n) s = .next (s.record ⟨.draw (drawAction x y n s), none⟩) :=
  execDrawSprite_inRange x y h

/-- The pixels of a row are the binary digits of its byte, bit 7 first (43_display.md R143). -/
theorem expand_eq_rowOfNat (b : Byte) : expand b = rowOfNat b.toNat := by
  refine congrArg Vector.ofFn (funext fun c => ?_)
  exact Nat.testBit_eq_decide_div_mod_eq

theorem drawAction_rows (x y : RegIdx) (n : RowCount) (s : State) :
    (drawAction x y n s).rows = (List.range n.val).map fun r => rowOfNat (s.mem.read (s.ix.toNat + r)).toNat := by
  simp only [drawAction, expand_eq_rowOfNat]

/-! #### The obligations -/

/-- Settles O14: the word is in the row of the opcode map for LD Vx, nn, and the meaning is one register write. -/
theorem setRegisterWritesOnlyVx : Obligations.SetRegisterWritesOnlyVx := fun s _w x nn hw =>
  ⟨decode_setRegisterImmediate hw, _, exec_setRegisterImmediate s x nn, getV_setV_record s x nn quiet,
    setV_record_frame s x nn⟩

/-- Settles O15: the meaning is one register write of the wrapped sum; an add after a set of the same register
finds the value set. -/
theorem addImmediateWrapsIntoVxOnly : Obligations.AddImmediateWrapsIntoVxOnly := by
  refine ⟨fun s w x nn hw => ⟨decode_addImmediateToRegister hw, _, exec_addImmediateToRegister s x nn, ?_,
    setV_record_frame s x _⟩, fun s x v v2 => ⟨_, _, exec_setRegisterImmediate s x v,
    exec_addImmediateToRegister _ x v2, ?_⟩⟩
  · rw [getV_setV_record, addReg_toNat]
  · rw [getV_setV_record, getV_setV_record, addReg_toNat]

/-- Settles O16: the zero-extended field is the address where the rows of a following draw begin. -/
theorem setIndexLoadsTheTwelveBitField : Obligations.SetIndexLoadsTheTwelveBitField := by
  refine ⟨fun s w nnn hw => ⟨decode_setIndexImmediate hw, _, exec_setIndexImmediate s nnn, zextIx_toNat nnn,
    fun _ => rfl, rfl, rfl, rfl, fun _ => rfl, rfl⟩, fun s nnn x y n hn => ?_⟩
  have hix : ((s.setIx (zextIx nnn)).record quiet).ix.toNat = nnn.toNat := zextIx_toNat nnn
  refine ⟨_, _, _, exec_setIndexImmediate s nnn, exec_drawSprite_inRange x y (.inr (hix.symm ▸ hn)), rfl, ?_⟩
  rw [drawAction_rows, hix, State.record_mem, State.setIx_mem]

end Sys2Proof.Machine
end

section
/-! ### Control flow (42_control_flow.md R121-R123, R126): what a jump, a CALL with room and a RET on a
non-empty stack answer, and the return address a CALL pushes. -/

namespace Sys2Proof.Machine

/-! #### The meanings -/

theorem exec_jump (addr : Addr12) (s : State) :
    exec (.jump addr) s = .next ((s.setPc (zextPc addr)).record quiet) := rfl

theorem exec_callSubroutine_room {s : State} (addr : Addr12) (h : s.stackDepth ≠ some s.stk.length) :
    exec (.callSubroutine addr) s = .next (((s.push (pcIncrement s.pc)).setPc (zextPc addr)).record quiet) := by
  rw [← pcToEntry_eq (pcIncrement s.pc)]
  exact execCallSubroutine_room addr h

theorem exec_returnFromSubroutine_cons {s : State} {r : StackVal} {rest : List StackVal} (h : s.stk = r :: rest) :
    exec .returnFromSubroutine s = .next (((s.setStk rest).setPc r).record quiet) := by
  rw [← entryToPc_eq r]
  exact execReturnFromSubroutine_cons h

/-! #### The call site -/

/-- Where a word was fetched, the two advances to the return address of a CALL there do not wrap. -/
theorem pcIncrement_pcIncrement_toNat_of_fetchRead {m : Memory} {a : PcVal} {w : Word}
    (h : fetchRead m a = some w) : (pcIncrement (pcIncrement a)).toNat = a.toNat + 4 := by
  obtain ⟨hlt, -⟩ := fetchRead_eq_some h
  rw [pcIncrement_toNat, pcIncrement_toNat_of_fetchRead h]
  omega

/-- The whole state after a step of a CALL with room: the provisional advance, then its own increment pushed. -/
theorem step_callSubroutine_room {s : State} {w : Word} {addr : Addr12} (hf : fetchRead s.mem s.pc = some w)
    (hw : FormatNNN 0x2 w addr) (hroom : s.stackDepth ≠ some s.stk.length) :
    step s = .next
      (((s.advancePc.push (pcIncrement (pcIncrement s.pc))).setPc (zextPc addr)).record quiet) :=
  (step_of_decode hf (decode_callSubroutine hw)).trans (exec_callSubroutine_room (s := s.advancePc) addr hroom)

/-! #### The obligations -/

/-- Settles O17: the word is in the row of the opcode map for JP nnn, and the meaning is one write of `pc`. -/
theorem jumpOverridesThePc : Obligations.JumpOverridesThePc := fun s _w addr hw =>
  ⟨decode_jump hw, _, exec_jump addr s, zextPc_toNat addr, fun _ => rfl, rfl, rfl, rfl, fun _ => rfl, rfl⟩

/-- Settles O22: the entry a CALL pushes is its call site plus 4, with no wrap since the CALL was fetched, and a
RET on that stack takes it to `pc` as it is. -/
theorem callThenReturnResumesAtSitePlusFour : Obligations.CallThenReturnResumesAtSitePlusFour := by
  intro s w addr hf hw hroom
  have hentry := pcIncrement_pcIncrement_toNat_of_fetchRead hf
  refine ⟨_, _, step_callSubroutine_room hf hw hroom, rfl, hentry, zextPc_toNat addr, fun _ => rfl, rfl,
    fun u hu => ?_⟩
  exact ⟨_, exec_returnFromSubroutine_cons hu, hentry, rfl, fun _ => rfl, rfl⟩

end Sys2Proof.Machine
end

section
/-! ### The inverse of the opcode map (30_encoding.md R62, R64): an instruction is decoded exactly from the words
in its own format, so a decoded instruction tells what the fetched word was. -/

namespace Sys2Proof.Machine

/-- `w` is a word of instruction `i`: the row of R64's table, with the operands of `i` in its fields. RET has no
row (R68). -/
def WordOf (w : Word) : Instr → Prop
  | .clearScreen => w.toNat = 0x00E0
  | .jump a => FormatNNN 0x1 w a
  | .callSubroutine a => FormatNNN 0x2 w a
  | .setRegisterImmediate x nn => FormatXNN 0x6 w x nn
  | .addImmediateToRegister x nn => FormatXNN 0x7 w x nn
  | .setIndexImmediate a => FormatNNN 0xA w a
  | .drawSprite x y n => FormatXYN 0xD w x y n
  | .returnFromSubroutine => False

section
variable {op : Nat} {w : Word} (h : w.toNat / 4096 = op)
include h

theorem formatNNN_fields : FormatNNN op w (fieldNNN w) := by
  rw [FormatNNN, fieldNNN_toNat]
  omega

theorem formatXNN_fields : FormatXNN op w (fieldX w) (fieldNN w) := by
  rw [FormatXNN, fieldX_val, fieldNN_toNat]
  omega

theorem formatXYN_fields : FormatXYN op w (fieldX w) (fieldY w) (fieldN w) := by
  rw [FormatXYN, fieldX_val, fieldY_val, fieldN_val]
  omega

end

theorem wordOf_of_decode {w : Word} {i : Instr} (h : decode w = .ok i) : WordOf w i := by
  rw [decode_eq] at h
  split_ifs at h with h0 h1 h2 h6 h7 hA hD <;> cases h
  · exact h0
  · exact formatNNN_fields h1
  · exact formatNNN_fields h2
  · exact formatXNN_fields h6
  · exact formatXNN_fields h7
  · exact formatNNN_fields hA
  · exact formatXYN_fields hD

theorem decode_of_wordOf {w : Word} {i : Instr} (h : WordOf w i) : decode w = .ok i := by
  cases i with
  | clearScreen => exact decode_clearScreen h
  | jump a => exact decode_jump h
  | callSubroutine a => exact decode_callSubroutine h
  | setRegisterImmediate x nn => exact decode_setRegisterImmediate h
  | addImmediateToRegister x nn => exact decode_addImmediateToRegister h
  | setIndexImmediate a => exact decode_setIndexImmediate h
  | drawSprite x y n => exact decode_drawSprite h
  | returnFromSubroutine => exact h.elim

theorem decode_eq_ok_iff {w : Word} {i : Instr} : decode w = .ok i ↔ WordOf w i :=
  ⟨wordOf_of_decode, decode_of_wordOf⟩

end Sys2Proof.Machine
end

section
/-! ### The display instructions (43_display.md R140-R143): neither writes anything but its record, and the rows
of a draw request are the expanded bytes from `ix` up. -/

namespace Sys2Proof.Machine

theorem exec_clearScreen (s : State) : exec .clearScreen s = .next (s.record quiet) := rfl

/-- An execution that only puts out its record leaves the spec's tuple and the build's depth alone. -/
theorem record_frame (s : State) (r : StepRecord) :
    (s.record r).pc = s.pc ∧ SameRegs s (s.record r) ∧ (s.record r).ix = s.ix ∧ (s.record r).stk = s.stk ∧
      SameMem s (s.record r) ∧ (s.record r).stackDepth = s.stackDepth :=
  ⟨rfl, fun _ => rfl, rfl, rfl, fun _ => rfl, rfl⟩

/-! #### The rows of a draw request -/

/-- Pixel `c` from the left is bit `7 - c` (R143). -/
theorem expand_get (b : Byte) (c : Fin 8) : (expand b).get c = b.getLsbD (7 - c.val) := by
  rw [expand, Vector.get_eq_getElem]
  exact Vector.getElem_ofFn _

section
variable (x y : RegIdx) (n : RowCount) (s : State)

theorem drawAction_rows_length : (drawAction x y n s).rows.length = n.val := by
  rw [drawAction, List.length_map, List.length_range]

theorem drawAction_row {r : Nat} (hr : r < n.val) :
    (drawAction x y n s).rows[r]? = some (expand (s.mem.read (s.ix.toNat + r))) := by
  rw [drawAction, List.getElem?_map, List.getElem?_range hr, Option.map_some]

end

/-! #### The obligations -/

/-- Settles O13: 0x00E0 is the one word of CLS, and its meaning is a quiet record. -/
theorem clearScreenChangesNothing : Obligations.ClearScreenChangesNothing :=
  ⟨fun _w => decode_eq_ok_iff, fun s => ⟨_, exec_clearScreen s, rfl, record_frame s quiet⟩⟩

/-- Settles O23: in range the meaning is the record of the draw request alone, and each row is read off the byte
it expands. -/
theorem drawHandsOverOriginAndRows : Obligations.DrawHandsOverOriginAndRows := fun s _w x y n hw hn =>
  ⟨decode_drawSprite hw, _, drawAction x y n s, exec_drawSprite_inRange x y hn, rfl, rfl,
    drawAction_rows_length x y n s, fun _r hr => ⟨_, drawAction_row x y n s hr, expand_get _⟩, record_frame s _⟩

end Sys2Proof.Machine
end

section
/-! ### The records of a step (43_display.md R145): a draw request comes only from a DrawSprite, and what is in the
history changes neither what a step does nor what it puts out. -/

namespace Sys2Proof.Machine

/-- The state with another history. -/
def State.setHistory (s : State) (l : List StepRecord) : State := { s with history := l }

section
variable {s t u : State} {i : Instr} {r r' : StepRecord}

theorem PutOut.record_eq (h : PutOut s (u.record r') r) : r' = r := (List.cons.inj h).1

/-! #### An execution -/

theorem Executes.exec_eq (he : Executes s i u r) : exec i s = .next (u.record r) := by
  cases he with
  | clearScreen | jump | setRegister | addImmediate | setIndex => rfl
  | call a h => exact execCallSubroutine_room a h
  | overflow a h => exact execCallSubroutine_full a h
  | draw x y n h => exact execDrawSprite_inRange x y h
  | outOfRange x y n hn h => exact execDrawSprite_outOfRange x y hn h
  | ret a rest h => exact execReturnFromSubroutine_cons h
  | underflow h => exact execReturnFromSubroutine_nil h

theorem exec_putOut (h : exec i s = .next t) (hput : PutOut s t r) : ∃ u, t = u.record r ∧ Executes s i u r := by
  obtain ⟨u, r', rfl, he⟩ := exec_next h
  obtain rfl := hput.record_eq
  exact ⟨u, rfl, he⟩

theorem Executes.drawSprite_of_draw {d : DrawAction} (he : Executes s i u r) (hd : r.result = .draw d) :
    ∃ x y n, i = .drawSprite x y n := by
  cases he with
  | draw x y n => exact ⟨x, y, n, rfl⟩
  | clearScreen | jump | call | overflow | setRegister | addImmediate | setIndex | outOfRange | ret | underflow =>
    cases hd

/-- No case of an execution reads the history: each is the same case with any other. -/
theorem Executes.setHistory (he : Executes s i u r) (l : List StepRecord) :
    Executes (s.setHistory l) i (u.setHistory l) r := by
  cases he with
  | clearScreen => exact .clearScreen
  | jump a => exact .jump a
  | call a h => exact .call a h
  | overflow a h => exact .overflow a h
  | setRegister x nn => exact .setRegister x nn
  | addImmediate x nn => exact .addImmediate x nn
  | setIndex a => exact .setIndex a
  | draw x y n h => exact .draw x y n h
  | outOfRange x y n hn h => exact .outOfRange x y n hn h
  | ret a rest h => exact .ret a rest h
  | underflow h => exact .underflow h

/-! #### A step -/

theorem step_of_fetchRead_none (hf : fetchRead s.mem s.pc = none) :
    step s = .next (s.advancePc.record ⟨.noEffect, some (.fetchOutOfRange s.pc)⟩) := by
  simp only [step, hf, decodeFailed]

theorem formatXYN_of_step_draw {d : DrawAction} (h : step s = .next t) (hput : PutOut s t r)
    (hd : r.result = .draw d) : ∃ w x y n, fetchRead s.mem s.pc = some w ∧ FormatXYN 0xD w x y n := by
  obtain ⟨-, hs⟩ | ⟨w, f, -, -, hs⟩ | ⟨w, i, hf, hdec, hs⟩ := step_cases s <;> rw [hs] at h
  case inl | inr.inl => cases h; cases hput.record_eq; cases hd
  case inr.inr =>
    obtain ⟨u, -, he⟩ := exec_putOut h hput
    obtain ⟨x, y, n, rfl⟩ := he.drawSprite_of_draw hd
    exact ⟨w, x, y, n, hf, wordOf_of_decode hdec⟩

theorem step_setHistory (h : step s = .next t) (hput : PutOut s t r) (l : List StepRecord) :
    step (s.setHistory l) = .next (t.setHistory (r :: l)) := by
  obtain ⟨hf, hs⟩ | ⟨w, f, hf, hdec, hs⟩ | ⟨w, i, hf, hdec, hs⟩ := step_cases s <;> rw [hs] at h
  case inl =>
    cases h
    cases hput.record_eq
    exact step_of_fetchRead_none (s := s.setHistory l) hf
  case inr.inl =>
    cases h
    cases hput.record_eq
    exact step_of_decode_error (s := s.setHistory l) hf hdec
  case inr.inr =>
    obtain ⟨u, rfl, he⟩ := exec_putOut h hput
    exact (step_of_decode (s := s.setHistory l) hf hdec).trans (he.setHistory l).exec_eq

end

/-- Settles O30: a record with a draw request is that of an executed DrawSprite, whose word is in its format; and
with another history before it, the step takes the same case and puts out the same record. -/
theorem drawRequestsOnlyFromDrawAndNeverReadBack : Obligations.DrawRequestsOnlyFromDrawAndNeverReadBack := by
  refine ⟨fun s t h => ?_, fun s t r l h hput => step_setHistory h hput l⟩
  obtain ⟨u, r, hs, hhist, -⟩ := step_adds_record s
  obtain rfl : u.record r = t := Host.Outcome.next.inj (hs.symm.trans h)
  have hput : PutOut s (u.record r) r := congrArg (r :: ·) hhist
  exact ⟨r, hput, fun _d hd => formatXYN_of_step_draw h hput hd⟩

end Sys2Proof.Machine
end

section
/-! ### Encoding (30_encoding.md R61-R66, R68): the encoder writes exactly the words that the opcode map reads, and
the rows of the opcode table tell those words by their opcode. -/

namespace Sys2Proof.Machine

/-! #### The encoder -/

theorem packNNN_eq_iff {op : BitVec 4} {a : Addr12} {w : Word} :
    packNNN op a = w ↔ FormatNNN op.toNat w a := by
  rw [word_eq_iff, packNNN_toNat, FormatNNN, eq_comm]

theorem packXNN_eq_iff {op : BitVec 4} {x : RegIdx} {nn : Byte} {w : Word} :
    packXNN op x nn = w ↔ FormatXNN op.toNat w x nn := by
  rw [word_eq_iff, packXNN_toNat, FormatXNN, eq_comm]

theorem packXYN_eq_iff {op : BitVec 4} {x y : RegIdx} {n : RowCount} {w : Word} :
    packXYN op x y n = w ↔ FormatXYN op.toNat w x y n := by
  rw [word_eq_iff, packXYN_toNat, FormatXYN, eq_comm]

theorem encode_eq_some_iff {i : Instr} {w : Word} : encode i = some w ↔ WordOf w i := by
  cases i with
  | clearScreen => exact Option.some_inj.trans (eq_comm.trans word_eq_iff)
  | jump | callSubroutine | setIndexImmediate => exact Option.some_inj.trans packNNN_eq_iff
  | setRegisterImmediate | addImmediateToRegister => exact Option.some_inj.trans packXNN_eq_iff
  | drawSprite => exact Option.some_inj.trans packXYN_eq_iff
  | returnFromSubroutine => exact iff_of_false nofun id

theorem decode_eq_ok_iff_encode {i : Instr} {w : Word} : decode w = .ok i ↔ encode i = some w :=
  decode_eq_ok_iff.trans encode_eq_some_iff.symm

theorem wellFormed_eq_isSome_encode (i : Instr) : i.wellFormed = (encode i).isSome := by
  cases i <;> rfl

/-- Settles O5: `decode w = .ok i` and `encode i = some w` both say that `w` is a word of `i`, and the well-formed
instructions are those with a word. -/
theorem encodeAndDecodeAgree : Obligations.EncodeAndDecodeAgree := by
  refine ⟨fun i hi => ?_, fun w i hd => ?_⟩
  · rw [wellFormed_eq_isSome_encode] at hi
    obtain ⟨w, hw⟩ := Option.isSome_iff_exists.1 hi
    exact ⟨w, hw, decode_eq_ok_iff_encode.2 hw⟩
  · have hw := decode_eq_ok_iff_encode.1 hd
    exact ⟨by rw [wellFormed_eq_isSome_encode, hw, Option.isSome_some], hw⟩

/-! #### The rows of the opcode table -/

theorem packNNN_fields (w : Word) : packNNN (fieldOp w) (fieldNNN w) = w :=
  packNNN_eq_iff.2 (formatNNN_fields (fieldOp_toNat w).symm)

theorem opcodeMask_toNat (w : Word) : (w &&& 0xF000#16).toNat = w.toNat / 4096 * 4096 := by
  have hmask : w &&& 0xF000#16 = packNNN (fieldOp w) 0#12 := by
    conv_lhs => rw [← packNNN_fields w]
    exact Laws.mask_append _ _
  rw [hmask, packNNN_toNat, fieldOp_toNat, BitVec.toNat_zero, Nat.add_zero]

theorem opcode_of_match {w k : Word} (h : w &&& 0xF000#16 = k) : w.toNat / 4096 = k.toNat / 4096 := by
  have hmask := opcodeMask_toNat w
  rw [h] at hmask
  omega

/-- Every mask of the table covers the opcode, so a row gives the opcode of the words it matches. -/
theorem opcodeMask_of_match {w : Word} {p : Word × Word} (hp : p ∈ opcodeRows) (h : w &&& p.1 = p.2) :
    w &&& 0xF000#16 = p.2 &&& 0xF000#16 := by
  have hcover : (opcodeRows.all fun p => p.1 &&& 0xF000#16 == 0xF000#16) = true := by decide
  rw [← h, BitVec.and_assoc, eq_of_beq (List.all_eq_true.1 hcover p hp)]

theorem tableRow (i : Instr) : Laws.TableRow.Statement i := by
  cases i with
  | clearScreen => exact Laws.TableRow.clearScreen
  | jump a => exact Laws.TableRow.jump a
  | callSubroutine a => exact Laws.TableRow.callSubroutine a
  | setRegisterImmediate x nn => exact Laws.TableRow.setRegisterImmediate x nn
  | addImmediateToRegister x nn => exact Laws.TableRow.addImmediateToRegister x nn
  | setIndexImmediate a => exact Laws.TableRow.setIndexImmediate a
  | drawSprite x y n => exact Laws.TableRow.drawSprite x y n
  | returnFromSubroutine => exact Laws.TableRow.returnFromSubroutine

theorem decode_of_match {w : Word} {p : Word × Word} (hp : p ∈ opcodeRows) (h : w &&& p.1 = p.2) :
    ∃ i, decode w = .ok i := by
  simp only [opcodeRows, List.mem_cons, List.not_mem_nil, or_false] at hp
  obtain rfl | rfl | rfl | rfl | rfl | rfl | rfl := hp
  · exact ⟨_, decode_clearScreen (word_eq_iff.1 ((BitVec.and_allOnes (x := w)).symm.trans h))⟩
  · exact ⟨_, decode_jump (formatNNN_fields (opcode_of_match h))⟩
  · exact ⟨_, decode_callSubroutine (formatNNN_fields (opcode_of_match h))⟩
  · exact ⟨_, decode_setRegisterImmediate (formatXNN_fields (opcode_of_match h))⟩
  · exact ⟨_, decode_addImmediateToRegister (formatXNN_fields (opcode_of_match h))⟩
  · exact ⟨_, decode_setIndexImmediate (formatNNN_fields (opcode_of_match h))⟩
  · exact ⟨_, decode_drawSprite (formatXYN_fields (opcode_of_match h))⟩

/-- Settles O4: a decodable word is the encoding of its instruction, which matches a row; and since every mask
covers the opcode, two rows that match one word have the same opcode, which no two rows share. -/
theorem decodableWordsMatchExactlyOneRow : Obligations.DecodableWordsMatchExactlyOneRow := by
  refine fun w => ⟨⟨fun ⟨i, hd⟩ => tableRow i w (decode_eq_ok_iff_encode.1 hd),
    fun ⟨p, hp, h⟩ => decode_of_match hp h⟩, fun p hp q hq hwp hwq => ?_⟩
  have hdistinct : (opcodeRows.map fun p => p.2 &&& 0xF000#16).Nodup := by decide
  exact List.inj_on_of_nodup_map hdistinct hp hq
    ((opcodeMask_of_match hp hwp).symm.trans (opcodeMask_of_match hq hwq))

/-! #### RET and the known words -/

/-- Settles O6: RET has no word, and 0x00EE is illegal. -/
theorem noWordDecodesToReturn : Obligations.NoWordDecodesToReturn :=
  ⟨fun _w => wordOf_of_decode, decode_illegalWord ⟨by decide, by decide⟩⟩

/-- Settles O7: each word is in its row of the opcode map. -/
theorem decodesKnownWordsOfEveryFormat : Obligations.DecodesKnownWordsOfEveryFormat :=
  ⟨decode_clearScreen rfl, decode_jump rfl, decode_callSubroutine rfl, decode_setRegisterImmediate rfl,
    decode_addImmediateToRegister rfl, decode_setIndexImmediate rfl, decode_drawSprite rfl,
    decode_illegalWord ⟨by decide, by decide⟩⟩

end Sys2Proof.Machine
end

section
/-! ### Fetch, and the executions that one equation describes (20_memory.md R43, 40_fetch_step.md R80-R83,
42_control_flow.md R122-R124, 43_display.md R141). -/

namespace Sys2Proof.Machine

/-! #### Fetching -/

/-- Settles O8: the two bytes in range, joined, or nothing. -/
theorem fetchReadsTwoBytesBigEndian : Obligations.FetchReadsTwoBytesBigEndian := fun _m _a =>
  ⟨fun h => ⟨_, fetchRead_of_lt h, joinBytes_toNat _ _⟩, fetchRead_of_ge⟩

/-- Settles O9: the state execution starts from is the advanced one, and the fetch keeps the advance from
wrapping. -/
theorem stepRunsTheDecodedInstruction : Obligations.StepRunsTheDecodedInstruction := fun s _w _i hf hd =>
  ⟨s.advancePc, step_of_decode hf hd, pcIncrement_toNat_of_fetchRead hf, fun _ => rfl, rfl, rfl, fun _ => rfl, rfl,
    rfl⟩

/-- Settles O11: nothing is fetched at 0xFFF or above, so the step only advances `pc` and records the failure. -/
theorem fetchPastMemoryIsSkipped : Obligations.FetchPastMemoryIsSkipped := fun s hpc =>
  ⟨_, step_of_fetchRead_none (fetchRead_of_ge (Nat.succ_le_succ hpc)), rfl, pcIncrement_toNat s.pc, fun _ => rfl,
    rfl, rfl, fun _ => rfl, rfl⟩

/-! #### CALL, RET and a draw out of range -/

theorem exec_callSubroutine_full {s : State} (addr : Addr12) (h : s.stackDepth = some s.stk.length) :
    exec (.callSubroutine addr) s = .next (s.record ⟨.error .stackOverflow, none⟩) :=
  execCallSubroutine_full addr h

theorem exec_returnFromSubroutine_nil {s : State} (h : s.stk = []) :
    exec .returnFromSubroutine s = .next (s.record ⟨.error .stackUnderflow, none⟩) :=
  execReturnFromSubroutine_nil h

theorem exec_drawSprite_outOfRange {s : State} (x y : RegIdx) {n : RowCount} (hn : n.val ≠ 0)
    (h : 4096 < s.ix.toNat + n.val) :
    exec (.drawSprite x y n) s = .next (s.record ⟨.error (.spriteOutOfRange (max s.ix.toNat 4096)), none⟩) :=
  execDrawSprite_outOfRange x y hn h

/-- Settles O18: with room the meaning is one push of the advanced `pc` and one write of `pc`. -/
theorem callPushesAndJumps : Obligations.CallPushesAndJumps := fun s _w addr hw hroom =>
  ⟨decode_callSubroutine hw, _, _, exec_callSubroutine_room addr hroom, rfl, pcIncrement_toNat s.pc,
    zextPc_toNat addr, fun _ => rfl, rfl, rfl, fun _ => rfl, rfl⟩

/-- Settles O19: on a full stack the meaning is its record alone. -/
theorem callOnAFullStackErrs : Obligations.CallOnAFullStackErrs := fun _s addr hfull =>
  ⟨_, exec_callSubroutine_full addr hfull, rfl, rfl, rfl, fun _ => rfl, rfl, fun _ => rfl, rfl⟩

/-- Settles O20: the entry goes to `pc` with its value. -/
theorem returnPopsIntoThePc : Obligations.ReturnPopsIntoThePc := fun _s _r _rest hstk =>
  ⟨_, exec_returnFromSubroutine_cons hstk, rfl, rfl, fun _ => rfl, rfl, rfl, fun _ => rfl, rfl⟩

/-- Settles O21: on an empty stack the meaning is its record alone. -/
theorem returnOnAnEmptyStackErrs : Obligations.ReturnOnAnEmptyStackErrs := fun _s hstk =>
  ⟨_, exec_returnFromSubroutine_nil hstk, rfl, rfl, hstk, fun _ => rfl, rfl, fun _ => rfl, rfl⟩

/-- Settles O24: out of range the meaning is its record alone, with the first address past memory. -/
theorem drawPastMemoryErrs : Obligations.DrawPastMemoryErrs := fun s x y _n hn hrange =>
  ⟨_, exec_drawSprite_outOfRange x y hn hrange, rfl, record_frame s _⟩

end Sys2Proof.Machine
end

section
/-! ### What an execution and a step write (10_state.md R20-R28, 42_control_flow.md R120, 60_exceptions.md R161,
R163): for each part of the state, the cases in which it changes. Each rule of the whole machine is read off them. -/

namespace Sys2Proof.Machine

section
variable {s t u : State} {i : Instr} {r : StepRecord}

/-! #### An execution, one part of the state at a time -/

theorem Executes.getV_cases (he : Executes s i u r) (y : RegIdx) :
    u.getV y = s.getV y ∨ ∃ nn, i = .setRegisterImmediate y nn ∨ i = .addImmediateToRegister y nn := by
  cases he with
  | setRegister x nn =>
    obtain rfl | hy := eq_or_ne y x
    · exact .inr ⟨nn, .inl rfl⟩
    · exact .inl (s.getV_setV_other x y _ hy)
  | addImmediate x nn =>
    obtain rfl | hy := eq_or_ne y x
    · exact .inr ⟨nn, .inr rfl⟩
    · exact .inl (s.getV_setV_other x y _ hy)
  | clearScreen | jump | call | overflow | setIndex | draw | outOfRange | ret | underflow => exact .inl rfl

theorem Executes.ix_cases (he : Executes s i u r) :
    u.ix = s.ix ∨ ∃ nnn, i = .setIndexImmediate nnn ∧ u.ix.toNat = nnn.toNat := by
  cases he with
  | setIndex a => exact .inr ⟨a, rfl, zextIx_toNat a⟩
  | clearScreen | jump | call | overflow | setRegister | addImmediate | draw | outOfRange | ret | underflow =>
    exact .inl rfl

theorem Executes.stk_cases (he : Executes s i u r) :
    u.stk = s.stk ∨ i = .returnFromSubroutine ∨
      ∃ a, i = .callSubroutine a ∧ s.stackDepth ≠ some s.stk.length ∧ u.stk = pcIncrement s.pc :: s.stk := by
  cases he with
  | call a h => exact .inr (.inr ⟨a, rfl, h, by rw [State.setPc_stk, State.push_stk, pcToEntry_eq]⟩)
  | ret => exact .inr (.inl rfl)
  | clearScreen | jump | overflow | setRegister | addImmediate | setIndex | draw | outOfRange | underflow =>
    exact .inl rfl

theorem Executes.pc_cases (he : Executes s i u r) :
    u.pc = s.pc ∨ i = .returnFromSubroutine ∨ ∃ a, i = .jump a ∨ i = .callSubroutine a := by
  cases he with
  | jump a => exact .inr (.inr ⟨a, .inl rfl⟩)
  | call a => exact .inr (.inr ⟨a, .inr rfl⟩)
  | ret => exact .inr (.inl rfl)
  | clearScreen | overflow | setRegister | addImmediate | setIndex | draw | outOfRange | underflow => exact .inl rfl

theorem Executes.stackDepth_eq (he : Executes s i u r) : u.stackDepth = s.stackDepth := by
  cases he <;> rfl

theorem Executes.trace_eq_none (he : Executes s i u r) : r.trace = none := by
  cases he <;> rfl

theorem Executes.error_cases (he : Executes s i u r) {e : StepError} (hr : r.result = .error e) :
    i = .returnFromSubroutine ∨ (e = .stackOverflow ∧ s.stackDepth = some s.stk.length) ∨
      e = .spriteOutOfRange (max s.ix.toNat 4096) := by
  cases he with
  | overflow a h => cases hr; exact .inr (.inl ⟨rfl, h⟩)
  | outOfRange => cases hr; exact .inr (.inr rfl)
  | ret | underflow => exact .inl rfl
  | clearScreen | jump | call | setRegister | addImmediate | setIndex | draw => cases hr

/-! #### A step -/

/-- A step that answers `t` skipped, or executed an instruction other than RET of which it fetched a word. -/
theorem step_next (h : step s = .next t) :
    (∃ f, t = s.advancePc.record ⟨.noEffect, some f⟩) ∨
      ∃ w i u r, fetchRead s.mem s.pc = some w ∧ WordOf w i ∧ Executes s.advancePc i u r ∧ t = u.record r := by
  obtain ⟨-, hs⟩ | ⟨w, f, -, -, hs⟩ | ⟨w, i, hf, hd, hs⟩ := step_cases s <;> rw [hs] at h
  case inl | inr.inl => cases h; exact .inl ⟨_, rfl⟩
  case inr.inr =>
    obtain ⟨u, r, rfl, he⟩ := exec_next h
    exact .inr ⟨w, i, u, r, hf, wordOf_of_decode hd, he, rfl⟩

theorem step_getV_cases (h : step s = .next t) (y : RegIdx) :
    t.getV y = s.getV y ∨
      ∃ w nn, fetchRead s.mem s.pc = some w ∧ (FormatXNN 0x6 w y nn ∨ FormatXNN 0x7 w y nn) := by
  obtain ⟨f, rfl⟩ | ⟨w, i, u, r, hf, hw, he, rfl⟩ := step_next h
  · exact .inl rfl
  · obtain hy | ⟨nn, rfl | rfl⟩ := he.getV_cases y
    · exact .inl hy
    · exact .inr ⟨w, nn, hf, .inl hw⟩
    · exact .inr ⟨w, nn, hf, .inr hw⟩

theorem step_ix_cases (h : step s = .next t) :
    t.ix = s.ix ∨
      ∃ w nnn, fetchRead s.mem s.pc = some w ∧ FormatNNN 0xA w nnn ∧ t.ix.toNat = nnn.toNat := by
  obtain ⟨f, rfl⟩ | ⟨w, i, u, r, hf, hw, he, rfl⟩ := step_next h
  · exact .inl rfl
  · obtain hix | ⟨nnn, rfl, hix⟩ := he.ix_cases
    · exact .inl hix
    · exact .inr ⟨w, nnn, hf, hw, hix⟩

/-- The highest word is at 0xFFE, so no call site plus 4 is above 0x1002 (R27). -/
theorem step_stk_cases (h : step s = .next t) :
    t.stk = s.stk ∨
      ∃ w a e, fetchRead s.mem s.pc = some w ∧ FormatNNN 0x2 w a ∧ s.stackDepth ≠ some s.stk.length ∧
        t.stk = e :: s.stk ∧ e.toNat = s.pc.toNat + 4 ∧ e.toNat ≤ 0x1002 := by
  obtain ⟨f, rfl⟩ | ⟨w, i, u, r, hf, hw, he, rfl⟩ := step_next h
  · exact .inl rfl
  · obtain hstk | rfl | ⟨a, rfl, hroom, hstk⟩ := he.stk_cases
    · exact .inl hstk
    · exact hw.elim
    · have hentry := pcIncrement_pcIncrement_toNat_of_fetchRead hf
      obtain ⟨hlt, -⟩ := fetchRead_eq_some hf
      exact .inr ⟨w, a, _, hf, hw, hroom, hstk, hentry, by rw [State.advancePc_pc, hentry]; omega⟩

theorem step_pc_of_no_transfer (h : step s = .next t)
    (hw : ∀ w, fetchRead s.mem s.pc = some w → w.toNat / 4096 ≠ 0x1 ∧ w.toNat / 4096 ≠ 0x2) :
    t.pc = pcIncrement s.pc := by
  obtain ⟨f, rfl⟩ | ⟨w, i, u, r, hf, hi, he, rfl⟩ := step_next h
  · rfl
  · obtain ⟨hjump, hcall⟩ := hw w hf
    obtain hpc | rfl | ⟨a, rfl | rfl⟩ := he.pc_cases
    · exact hpc
    · exact hi.elim
    · exact absurd (FormatNNN.op_eq hi) hjump
    · exact absurd (FormatNNN.op_eq hi) hcall

theorem step_stackDepth (h : step s = .next t) : t.stackDepth = s.stackDepth := by
  obtain ⟨f, rfl⟩ | ⟨w, i, u, r, -, -, he, rfl⟩ := step_next h
  · rfl
  · exact he.stackDepth_eq

theorem step_noEffect_of_trace (h : step s = .next t) (hput : PutOut s t r) (hr : r.trace ≠ none) :
    r.result = .noEffect := by
  obtain ⟨f, rfl⟩ | ⟨w, i, u, r', -, -, he, rfl⟩ := step_next h <;> obtain rfl := hput.record_eq
  · rfl
  · exact absurd he.trace_eq_none hr

theorem step_error_cases (h : step s = .next t) (hput : PutOut s t r) {e : StepError} (hr : r.result = .error e) :
    (e = .stackOverflow ∧ s.stackDepth = some s.stk.length) ∨ e = .spriteOutOfRange (max s.ix.toNat 4096) := by
  obtain ⟨f, rfl⟩ | ⟨w, i, u, r', -, hw, he, rfl⟩ := step_next h <;> obtain rfl := hput.record_eq
  · cases hr
  · obtain rfl | herr := he.error_cases hr
    · exact hw.elim
    · exact herr

/-! #### A step of a transfer -/

theorem step_jump {w : Word} {a : Addr12} (hf : fetchRead s.mem s.pc = some w) (hw : FormatNNN 0x1 w a) :
    step s = .next ((s.advancePc.setPc (zextPc a)).record quiet) :=
  (step_of_decode hf (decode_jump hw)).trans (exec_jump a s.advancePc)

theorem step_callSubroutine_full {w : Word} {a : Addr12} (hf : fetchRead s.mem s.pc = some w)
    (hw : FormatNNN 0x2 w a) (hfull : s.stackDepth = some s.stk.length) :
    step s = .next (s.advancePc.record ⟨.error .stackOverflow, none⟩) :=
  (step_of_decode hf (decode_callSubroutine hw)).trans (exec_callSubroutine_full (s := s.advancePc) a hfull)

end

/-! #### The obligations -/

/-- Settles O25: the cases in which a register changes, of an execution and of a step. -/
theorem onlyRegisterInstructionsWriteRegisters : Obligations.OnlyRegisterInstructionsWriteRegisters := by
  refine ⟨fun i s t y h hy => ?_, fun s t y h hy => (step_getV_cases h y).resolve_left hy⟩
  obtain ⟨u, r, rfl, he⟩ := exec_next h
  exact (he.getV_cases y).resolve_left hy

/-- Settles O26: no case of an execution writes memory, and neither does a skip. -/
theorem noInstructionWritesMemory : Obligations.NoInstructionWritesMemory :=
  ⟨fun _i _s _t => exec_mem, fun _s _t => step_mem⟩

/-- Settles O27: the cases in which `ix` changes, of an execution and of a step. -/
theorem onlySetIndexWritesTheIndex : Obligations.OnlySetIndexWritesTheIndex := by
  refine ⟨fun i s t h hix => ?_, fun s t h hix => (step_ix_cases h).resolve_left hix⟩
  obtain ⟨u, r, rfl, he⟩ := exec_next h
  exact he.ix_cases.resolve_left hix

/-- Settles O28: a step of each transfer by its equation, and every other step by the cases in which `pc`
changes. -/
theorem nextPcIsWhatTheMuxSelects : Obligations.NextPcIsWhatTheMuxSelects := by
  refine fun s t h => ⟨fun w a hf hw => ?_, fun w a hf hw hroom => ?_, fun w a hf hw hfull => ?_, fun hw => ?_⟩
  · cases h.symm.trans (step_jump hf hw)
    exact zextPc_toNat a
  · cases h.symm.trans (step_callSubroutine_room hf hw hroom)
    exact zextPc_toNat a
  · cases h.symm.trans (step_callSubroutine_full hf hw hfull)
    exact pcIncrement_toNat s.pc
  · rw [step_pc_of_no_transfer h hw, pcIncrement_toNat]

/-- Settles O29: the cases in which the stack changes, of an execution and of a step. -/
theorem onlyCallAndReturnTouchTheStack : Obligations.OnlyCallAndReturnTouchTheStack := by
  refine ⟨fun i s t h hstk => ?_, fun s t h hstk => ?_⟩
  · obtain ⟨u, r, rfl, he⟩ := exec_next h
    obtain hret | ⟨a, hcall, -⟩ := he.stk_cases.resolve_left hstk
    · exact .inr hret
    · exact .inl ⟨a, hcall⟩
  · obtain ⟨w, a, e, hf, hw, -, hpush⟩ := (step_stk_cases h).resolve_left hstk
    exact ⟨w, a, e, hf, hw, hpush⟩

/-- Settles O31: a step that errs is the advance of `pc` and its record, and only a skip traces. -/
theorem everyErrorIsPrecise : Obligations.EveryErrorIsPrecise := by
  intro s t r h hput hr
  have hresult := step_noEffect_of_trace h hput
  obtain rfl := step_errs_eq h hput hr
  exact ⟨pcIncrement_toNat s.pc, fun _ => rfl, rfl, rfl, rfl, rfl, hresult⟩

/-- Settles O32: of the errors a step can return, the invariant's bound on `ix` fixes the address. -/
theorem stepErrorsAreTheReachableOnes : Obligations.StepErrorsAreTheReachableOnes := by
  refine fun s t r hinv h hput => ⟨fun hr => ?_, fun hr => ?_, fun a hr => ?_⟩
  · obtain ⟨he, -⟩ | he := step_error_cases h hput hr <;> cases he
  · obtain ⟨-, hfull⟩ | he := step_error_cases h hput hr
    · exact hfull
    · cases he
  · obtain ⟨he, -⟩ | he := step_error_cases h hput hr
    · cases he
    · have hix := hinv.ix_le
      obtain rfl := StepError.spriteOutOfRange.inj he
      omega

end Sys2Proof.Machine
end

section
/-! ### The invariant along a run (10_state.md R26, R27, R34, 70_reset_and_hazards.md R183): it holds after reset, and
every step and every Load keeps it. -/

namespace Sys2Proof.Machine

/-! #### Reset -/

/-- Settles O1: the fields of the reset state. -/
theorem resetHoldsTheDecidedValues : Obligations.ResetHoldsTheDecidedValues :=
  ⟨State.reset_getV, rfl, rfl, rfl, Memory.read_nil, rfl, rfl⟩

/-- Settles O33: nothing is listed and nothing is stacked at reset, whatever the depth. -/
theorem resetMeetsTheInvariant : Obligations.ResetMeetsTheInvariant :=
  ⟨fun _depth => ⟨⟨rfl, Nat.zero_le _, fun d _ => Nat.zero_le d, List.forall_mem_nil _⟩, rfl⟩, rfl⟩

/-! #### One host operation -/

theorem step_inv {s t : State} (hinv : s.Inv) (h : step s = .next t) : t.Inv where
  mem_wf := by
    rw [step_mem h]
    exact hinv.mem_wf
  ix_le := by
    obtain hix | ⟨w, nnn, -, -, hix⟩ := step_ix_cases h <;> rw [hix]
    · exact hinv.ix_le
    · exact Nat.le_of_lt_succ nnn.isLt
  depth_le := by
    intro d hd
    rw [step_stackDepth h] at hd
    have hle := hinv.depth_le d hd
    obtain hstk | ⟨w, a, e, -, -, hroom, hstk, -⟩ := step_stk_cases h <;> rw [hstk]
    · exact hle
    · have hne : s.stk.length ≠ d := fun hlen => hroom (hlen ▸ hd)
      exact Nat.lt_of_le_of_ne hle hne
  entry_le := by
    obtain hstk | ⟨w, a, e, -, -, -, hstk, -, he⟩ := step_stk_cases h <;> rw [hstk]
    · exact hinv.entry_le
    · exact List.forall_mem_cons.2 ⟨he, hinv.entry_le⟩

theorem load_inv {bs : List Byte} {s t : State} (hinv : s.Inv) (h : load bs s = .next t) : t.Inv := by
  have hwf := load_mem_wf hinv.mem_wf h
  obtain ⟨-, rfl⟩ := load_next h
  exact ⟨hwf, hinv.ix_le, hinv.depth_le, hinv.entry_le⟩

theorem hostOp_inv {o : HostOp} {s t : State} (hinv : s.Inv) (h : hostOp o s = .next t) : t.Inv := by
  cases o with
  | load bs => exact load_inv hinv h
  | step => exact step_inv hinv h

theorem hostOp_stackDepth {o : HostOp} {s t : State} (h : hostOp o s = .next t) : t.stackDepth = s.stackDepth := by
  cases o with
  | load bs =>
    obtain ⟨-, rfl⟩ := load_next h
    rfl
  | step => exact step_stackDepth h

/-- A step puts one record in front of the history, a Load none. -/
theorem hostOp_history {o : HostOp} {s t : State} (h : hostOp o s = .next t) :
    ∃ l, t.history = l ++ s.history ∧ l.length = [o].count .step := by
  cases o with
  | load bs =>
    obtain ⟨-, rfl⟩ := load_next h
    exact ⟨[], rfl, rfl⟩
  | step =>
    obtain ⟨u, r, hs, hhist, -⟩ := step_adds_record s
    obtain rfl : u.record r = t := Host.Outcome.next.inj (hs.symm.trans h)
    exact ⟨[r], congrArg (r :: ·) hhist, rfl⟩

/-! #### A sequence of host operations -/

theorem runOps_inv {ops : List HostOp} {s t : State} (hinv : s.Inv) (h : runOps ops s = .next t) : t.Inv := by
  induction ops generalizing s with
  | nil => cases h; exact hinv
  | cons o os ih =>
    obtain ⟨u, hop, hrest⟩ := runOps_cons_next h
    exact ih (hostOp_inv hinv hop) hrest

theorem runOps_stackDepth {ops : List HostOp} {s t : State} (h : runOps ops s = .next t) :
    t.stackDepth = s.stackDepth := by
  induction ops generalizing s with
  | nil => cases h; rfl
  | cons o os ih =>
    obtain ⟨u, hop, hrest⟩ := runOps_cons_next h
    exact (ih hrest).trans (hostOp_stackDepth hop)

theorem runOps_history {ops : List HostOp} {s t : State} (h : runOps ops s = .next t) :
    ∃ l, t.history = l ++ s.history ∧ l.length = ops.count .step := by
  induction ops generalizing s with
  | nil => cases h; exact ⟨[], rfl, rfl⟩
  | cons o os ih =>
    obtain ⟨u, hop, hrest⟩ := runOps_cons_next h
    obtain ⟨l, hl, hlen⟩ := ih hrest
    obtain ⟨l', hl', hlen'⟩ := hostOp_history hop
    refine ⟨l ++ l', by rw [hl, hl', List.append_assoc], ?_⟩
    rw [List.length_append, hlen, hlen', Nat.add_comm, ← List.count_append, List.singleton_append]

theorem State.Clean.of_history {s t : State} {l : List StepRecord} (h : t.history = l ++ s.history) (ht : t.Clean) :
    s.Clean := fun r hr => ht r (h ▸ List.mem_append_right l hr)

/-! #### The obligations -/

/-- Settles O34: memory and the depth stay, `ix` is a 12-bit field if it changes, and the stack gains at most one
entry, where it has room. -/
theorem stepKeepsTheInvariant : Obligations.StepKeepsTheInvariant := fun _s _t => step_inv

/-- Settles O35, by induction on the sequence of host operations, for each part of the statement on its own. -/
theorem hostRunsKeepTheInvariantAndTheRecords : Obligations.HostRunsKeepTheInvariantAndTheRecords := by
  intro ops s t hinv h
  obtain ⟨l, hl, hlen⟩ := runOps_history h
  exact ⟨runOps_inv hinv h, runOps_stackDepth h, ⟨l, hl, hlen⟩, State.Clean.of_history hl⟩

end Sys2Proof.Machine
end

section
/-! ### Load and the step after it (20_memory.md R49, R50, section 6), and runs over zero words
(70_reset_and_hazards.md section 1). -/

namespace Sys2Proof.Machine

/-! #### Load -/

theorem load_of_le {bs : List Byte} (s : State) (h : bs.length ≤ 3584) :
    load bs s = .next ((s.setMem (s.mem.writeBytes 0x200 bs)).setPc 0x200#16) := if_pos h

theorem loadCovers_at (bs : List Byte) (k : Nat) : loadCovers bs (0x200 + k) = bs[k]? := by
  rw [loadCovers, if_neg (by omega), Nat.add_sub_cancel_left]

theorem loadCovers_eq_none {bs : List Byte} {a : Nat} (h : a < 0x200 ∨ 0x200 + bs.length ≤ a) :
    loadCovers bs a = none := by
  rw [loadCovers, ite_eq_left_iff, List.getElem?_eq_none_iff]
  omega

theorem read_load_at {bs : List Byte} {s t : State} {k : Nat} {b : Byte} (hwf : s.mem.wf = true)
    (h : load bs s = .next t) (hb : bs[k]? = some b) : t.mem.read (0x200 + k) = b := by
  rw [read_load hwf h, loadCovers_at, hb, Option.getD_some]

theorem read_load_uncovered {bs : List Byte} {s t : State} {a : Nat} (hwf : s.mem.wf = true)
    (h : load bs s = .next t) (ha : a < 0x200 ∨ 0x200 + bs.length ≤ a) : t.mem.read a = s.mem.read a := by
  rw [read_load hwf h, loadCovers_eq_none ha, Option.getD_none]

/-- Settles O36: Load is one write of memory and one of `pc`, and memory reads what it covers. -/
theorem loadCopiesVerbatimAndSetsPc : Obligations.LoadCopiesVerbatimAndSetsPc := by
  intro bs s hwf hlen
  have h := load_of_le s hlen
  exact ⟨_, h, rfl, fun k b => read_load_at hwf h, fun a => read_load_uncovered hwf h, load_mem_wf hwf h,
    fun _ => rfl, rfl, rfl, rfl, rfl⟩

/-- Settles O37: the guard of Load. -/
theorem overlongLoadHasNoTransition : Obligations.OverlongLoadHasNoTransition := fun _bs _s hlen =>
  if_neg (Nat.not_le.2 hlen)

/-- The fetch after a Load of two bytes or more reads the first two, high byte first. -/
theorem fetchRead_load {hi lo : Byte} {rest : List Byte} {s t : State} (hwf : s.mem.wf = true)
    (h : load (hi :: lo :: rest) s = .next t) : fetchRead t.mem 0x200#16 = some (joinBytes hi lo) := by
  have hhi : t.mem.read 0x200 = hi := read_load_at (k := 0) hwf h rfl
  have hlo : t.mem.read 0x201 = lo := read_load_at (k := 1) hwf h rfl
  rw [fetchRead_of_lt (by decide), ← hhi, ← hlo]
  rfl

/-- Settles O38: the step after the Load fetches the word of its first two bytes and executes in the advanced
state, of which Load has written only memory and `pc`. -/
theorem stepAfterLoadRunsTheLoadedWord : Obligations.StepAfterLoadRunsTheLoadedWord := by
  intro hi lo rest s i w hwf hlen hw hd
  have h := load_of_le s hlen
  obtain rfl : w = joinBytes hi lo := word_eq_iff.2 (hw.trans (joinBytes_toNat hi lo).symm)
  exact ⟨_, _, h, step_of_decode (fetchRead_load hwf h) hd, rfl, fun _ => rfl, rfl, rfl, rfl, rfl, fun _ => rfl⟩

/-! #### Zero words -/

theorem fetchRead_zero {m : Memory} {a : PcVal} (hlt : a.toNat + 1 < 4096) (h0 : m.read a.toNat = 0x00#8)
    (h1 : m.read (a.toNat + 1) = 0x00#8) : fetchRead m a = some 0x0000#16 := by
  rw [fetchRead_of_lt hlt, h0, h1]
  rfl

/-- Settles O42, by induction on the number of steps: memory reads zero from the advanced `pc` up as well. -/
theorem zeroWordsAreSkippedUpToTheEnd : Obligations.ZeroWordsAreSkippedUpToTheEnd := by
  intro k
  induction k with
  | zero => exact fun s _ _ => ⟨s, rfl, rfl, rfl, fun _ => rfl, rfl, rfl, fun _ => rfl, rfl⟩
  | succ k ih =>
    intro s hzero hend
    have hf : fetchRead s.mem s.pc = some 0x0000#16 :=
      fetchRead_zero (by omega) (hzero _ (by omega) (by omega)) (hzero _ (by omega) (by omega))
    have hs := step_of_decode_error hf (decode_illegalWord ⟨by decide, by decide⟩)
    have hpc : s.advancePc.pc.toNat = s.pc.toNat + 2 := pcIncrement_toNat_of_fetchRead hf
    obtain ⟨t, hrun, htpc, hhist, hframe⟩ :=
      ih (s.advancePc.record ⟨.noEffect, some (.unknownOpcode 0x0000#16)⟩)
        (fun a ha => hzero a (by rw [State.record_pc] at ha; omega)) (by rw [State.record_pc]; omega)
    refine ⟨t, (run_succ_of_next hs).trans hrun, ?_, ?_, hframe⟩
    · rw [htpc, State.record_pc]
      omega
    · rw [hhist, List.replicate_succ', List.append_assoc]
      rfl

/-- Settles O2: reset memory reads zero everywhere. -/
theorem unloadedRunSkipsZeroWords : Obligations.UnloadedRunSkipsZeroWords := by
  intro k hk
  obtain ⟨t, hrun, hpc, hhist, hv, hix, hstk, hmem, -⟩ :=
    zeroWordsAreSkippedUpToTheEnd k State.reset (fun a _ _ => Memory.read_nil a) hk
  exact ⟨t, hrun, hpc, hhist.trans (List.append_nil _), hv, hstk, congrArg BitVec.toNat hix, hmem⟩

end Sys2Proof.Machine
end

section
/-! ### The machine against the spec's tuple (10_state.md R34, 40_fetch_step.md R80-R84): each row of the tuple's
execute as an equation, and the tuple of each update of the state. -/

namespace Sys2Proof.Machine

/-! #### The tuple's execute, a row at a time -/

/-- R66 with the opcodes of the map listed one by one, as the decoder and the tuple test them. -/
theorem illegalWord_iff {w : Word} : IllegalWord w ↔
    w.toNat ≠ 0x00E0 ∧ w.toNat / 4096 ≠ 0x1 ∧ w.toNat / 4096 ≠ 0x2 ∧ w.toNat / 4096 ≠ 0x6 ∧
      w.toNat / 4096 ≠ 0x7 ∧ w.toNat / 4096 ≠ 0xA ∧ w.toNat / 4096 ≠ 0xD := by
  simp only [IllegalWord, List.mem_cons, List.not_mem_nil, or_false, not_or, ne_eq]

section
variable {depth : Option Nat} {w : Nat} {t : Tuple}

theorem Tuple.execute_clearScreen (h : w = 0x00E0) : Tuple.execute depth w t = (t, quiet) := if_pos h

theorem Tuple.execute_jump (h : w / 4096 = 0x1) :
    Tuple.execute depth w t = ({ t with pc := w % 4096 }, quiet) := by
  have hne : w ≠ 0x00E0 := by omega
  simp [Tuple.execute, hne, h]

theorem Tuple.execute_call (h : w / 4096 = 0x2) (hroom : depth ≠ some t.stk.length) :
    Tuple.execute depth w t = ({ t with stk := (t.pc + 2) % 65536 :: t.stk, pc := w % 4096 }, quiet) := by
  have hne : w ≠ 0x00E0 := by omega
  simp [Tuple.execute, hne, h, hroom]

theorem Tuple.execute_call_full (h : w / 4096 = 0x2) (hfull : depth = some t.stk.length) :
    Tuple.execute depth w t = (t, ⟨.error .stackOverflow, none⟩) := by
  have hne : w ≠ 0x00E0 := by omega
  simp [Tuple.execute, hne, h, hfull]

theorem Tuple.execute_setRegister (h : w / 4096 = 0x6) :
    Tuple.execute depth w t =
      ({ t with v := fun i => if i = w / 256 % 16 then w % 256 else t.v i }, quiet) := by
  have hne : w ≠ 0x00E0 := by omega
  simp [Tuple.execute, hne, h]

theorem Tuple.execute_addImmediate (h : w / 4096 = 0x7) :
    Tuple.execute depth w t =
      ({ t with v := fun i => if i = w / 256 % 16 then (t.v (w / 256 % 16) + w % 256) % 256 else t.v i },
        quiet) := by
  have hne : w ≠ 0x00E0 := by omega
  simp [Tuple.execute, hne, h]

theorem Tuple.execute_setIndex (h : w / 4096 = 0xA) :
    Tuple.execute depth w t = ({ t with ix := w % 4096 }, quiet) := by
  have hne : w ≠ 0x00E0 := by omega
  simp [Tuple.execute, hne, h]

theorem Tuple.execute_draw (h : w / 4096 = 0xD) (hn : w % 16 = 0 ∨ t.ix + w % 16 ≤ 4096) :
    Tuple.execute depth w t =
      (t, ⟨.draw ⟨(BitVec.ofNat 8 (t.v (w / 256 % 16)), BitVec.ofNat 8 (t.v (w / 16 % 16))),
        (List.range (w % 16)).map fun r => rowOfNat (t.m (t.ix + r))⟩, none⟩) := by
  have hne : w ≠ 0x00E0 := by omega
  simp [Tuple.execute, hne, h, hn]

theorem Tuple.execute_draw_outOfRange (h : w / 4096 = 0xD) (hn : w % 16 ≠ 0) (hrange : 4096 < t.ix + w % 16) :
    Tuple.execute depth w t = (t, ⟨.error (.spriteOutOfRange (max t.ix 4096)), none⟩) := by
  have hne : w ≠ 0x00E0 := by omega
  simp [Tuple.execute, hne, h, hn, Nat.not_le.2 hrange]

theorem Tuple.execute_illegal {w : Word} (h : IllegalWord w) :
    Tuple.execute depth w.toNat t = (t, ⟨.noEffect, some (.unknownOpcode w)⟩) := by
  obtain ⟨hne, h1, h2, h6, h7, hA, hD⟩ := illegalWord_iff.1 h
  simp only [Tuple.execute, hne, h1, h2, h6, h7, hA, hD, if_false, BitVec.ofNat_toNat, BitVec.setWidth_eq]

end

/-! #### The operands of a word in a format, as the tuple reads them -/

section
variable {op : Nat} {w : Word} {a : Addr12} {x y : RegIdx} {nn : Byte} {n : RowCount}

theorem FormatNNN.nnn_eq (h : FormatNNN op w a) : w.toNat % 4096 = a.toNat := by
  rw [← fieldNNN_toNat, h.fieldNNN_eq]

theorem FormatXNN.x_eq (h : FormatXNN op w x nn) : w.toNat / 256 % 16 = x.val := by
  rw [← fieldX_val, h.fieldX_eq]

theorem FormatXNN.nn_eq (h : FormatXNN op w x nn) : w.toNat % 256 = nn.toNat := by
  rw [← fieldNN_toNat, h.fieldNN_eq]

theorem FormatXYN.x_eq (h : FormatXYN op w x y n) : w.toNat / 256 % 16 = x.val := by
  rw [← fieldX_val, h.fieldX_eq]

theorem FormatXYN.y_eq (h : FormatXYN op w x y n) : w.toNat / 16 % 16 = y.val := by
  rw [← fieldY_val, h.fieldY_eq]

theorem FormatXYN.n_eq (h : FormatXYN op w x y n) : w.toNat % 16 = n.val := by
  rw [← fieldN_val, h.fieldN_eq]

end

theorem decode_eq_error {w : Word} {f : DecodeFailure} (h : decode w = .error f) :
    f = .unknownOpcode w ∧ IllegalWord w := by
  rw [decode_eq] at h
  split_ifs at h with h0 h1 h2 h6 h7 hA hD
  cases h
  exact ⟨rfl, illegalWord_iff.2 ⟨h0, h1, h2, h6, h7, hA, hD⟩⟩

/-! #### The tuple of a state -/

section
variable (s : State) (x : RegIdx) (b : RegVal)

@[simp] theorem Tuple.ofState_v : (Tuple.ofState s).v x.val = (s.getV x).toNat := dif_pos x.isLt

theorem Tuple.ofState_v_of_not_lt {k : Nat} (hk : ¬ k < 16) : (Tuple.ofState s).v k = 0 := dif_neg hk

@[simp] theorem Tuple.ofState_pc : (Tuple.ofState s).pc = s.pc.toNat := rfl

@[simp] theorem Tuple.ofState_ix : (Tuple.ofState s).ix = s.ix.toNat := rfl

@[simp] theorem Tuple.ofState_stk_length : (Tuple.ofState s).stk.length = s.stk.length := List.length_map _

@[simp] theorem Tuple.ofState_m (a : Nat) : (Tuple.ofState s).m a = (s.mem.read a).toNat := rfl

theorem Tuple.ofState_setV : Tuple.ofState (s.setV x b) =
    { Tuple.ofState s with v := fun i => if i = x.val then b.toNat else (Tuple.ofState s).v i } := by
  have hv : (Tuple.ofState (s.setV x b)).v = fun i => if i = x.val then b.toNat else (Tuple.ofState s).v i := by
    funext i
    by_cases hi : i < 16
    · rw [Tuple.ofState_v (s.setV x b) ⟨i, hi⟩, Tuple.ofState_v s ⟨i, hi⟩, State.getV_setV, apply_ite BitVec.toNat]
      exact if_congr Fin.ext_iff rfl rfl
    · have hx := Laws.regIdx_lt x
      rw [Tuple.ofState_v_of_not_lt _ hi, if_neg (by omega), Tuple.ofState_v_of_not_lt _ hi]
  rw [← hv]
  rfl

theorem Tuple.ofState_setPc (a : PcVal) :
    Tuple.ofState (s.setPc a) = { Tuple.ofState s with pc := a.toNat } := rfl

theorem Tuple.ofState_setIx (a : IxVal) :
    Tuple.ofState (s.setIx a) = { Tuple.ofState s with ix := a.toNat } := rfl

theorem Tuple.ofState_push (a : StackVal) :
    Tuple.ofState (s.push a) = { Tuple.ofState s with stk := a.toNat :: (Tuple.ofState s).stk } := rfl

theorem Tuple.ofState_record (r : StepRecord) : Tuple.ofState (s.record r) = Tuple.ofState s := rfl

theorem Tuple.ofState_advancePc :
    Tuple.ofState s.advancePc = { Tuple.ofState s with pc := (s.pc.toNat + 2) % 65536 } := by
  rw [State.advancePc, Tuple.ofState_setPc, pcIncrement_toNat]

end

/-! #### The simulation -/

theorem drawAction_eq_ofState (s : State) (x y : RegIdx) (n : RowCount) : drawAction x y n s =
    ⟨(BitVec.ofNat 8 ((Tuple.ofState s).v x.val), BitVec.ofNat 8 ((Tuple.ofState s).v y.val)),
      (List.range n.val).map fun r => rowOfNat ((Tuple.ofState s).m ((Tuple.ofState s).ix + r))⟩ := by
  rw [Tuple.ofState_v, Tuple.ofState_v]
  simp only [BitVec.ofNat_toNat, BitVec.setWidth_eq]
  exact congrArg (DrawAction.mk _) (drawAction_rows x y n s)

/-- Each case of an execution is the row of the tuple's execute for a word of its instruction. -/
theorem Executes.ofState_eq {s u : State} {i : Instr} {r : StepRecord} {w : Word} (he : Executes s i u r)
    (hw : WordOf w i) :
    (Tuple.ofState u, r) = Tuple.execute s.stackDepth w.toNat (Tuple.ofState s) := by
  cases he with
  | clearScreen => exact (Tuple.execute_clearScreen hw).symm
  | jump a =>
    rw [Tuple.execute_jump (FormatNNN.op_eq hw), FormatNNN.nnn_eq hw, Tuple.ofState_setPc, zextPc_toNat]
    rfl
  | call a h =>
    rw [Tuple.execute_call (FormatNNN.op_eq hw) (by rwa [Tuple.ofState_stk_length]), FormatNNN.nnn_eq hw,
      Tuple.ofState_setPc, Tuple.ofState_push, zextPc_toNat, pcToEntry_eq, pcIncrement_toNat]
    rfl
  | overflow a h =>
    rw [Tuple.execute_call_full (FormatNNN.op_eq hw) (by rwa [Tuple.ofState_stk_length])]
  | setRegister x nn =>
    rw [Tuple.execute_setRegister (FormatXNN.op_eq hw), FormatXNN.x_eq hw, FormatXNN.nn_eq hw, Tuple.ofState_setV,
      immediate_eq]
    rfl
  | addImmediate x nn =>
    rw [Tuple.execute_addImmediate (FormatXNN.op_eq hw), FormatXNN.x_eq hw, FormatXNN.nn_eq hw,
      Tuple.ofState_setV, immediate_eq, addReg_toNat, Tuple.ofState_v]
    rfl
  | setIndex a =>
    rw [Tuple.execute_setIndex (FormatNNN.op_eq hw), FormatNNN.nnn_eq hw, Tuple.ofState_setIx, zextIx_toNat]
    rfl
  | draw x y n h =>
    rw [Tuple.execute_draw (FormatXYN.op_eq hw) (by rwa [FormatXYN.n_eq hw]), FormatXYN.x_eq hw, FormatXYN.y_eq hw,
      FormatXYN.n_eq hw, drawAction_eq_ofState]
  | outOfRange x y n hn h =>
    rw [Tuple.execute_draw_outOfRange (FormatXYN.op_eq hw) (by rwa [FormatXYN.n_eq hw]) (by rwa [FormatXYN.n_eq hw])]
    rfl
  | ret | underflow => exact hw.elim

theorem Tuple.step_of_fetchRead_none {s : State} (hf : fetchRead s.mem s.pc = none) :
    Tuple.step s.stackDepth (Tuple.ofState s) =
      (Tuple.ofState s.advancePc, ⟨.noEffect, some (.fetchOutOfRange s.pc)⟩) := by
  have hge : ¬ s.pc.toNat + 1 < 4096 := fun hlt => by
    rw [fetchRead_of_lt hlt] at hf
    cases hf
  simp only [Tuple.step, Tuple.ofState_pc, hge, if_false, Tuple.ofState_advancePc, BitVec.ofNat_toNat,
    BitVec.setWidth_eq]

theorem Tuple.step_of_fetchRead_some {s : State} {w : Word} (hf : fetchRead s.mem s.pc = some w) :
    Tuple.step s.stackDepth (Tuple.ofState s) =
      Tuple.execute s.stackDepth w.toNat (Tuple.ofState s.advancePc) := by
  obtain ⟨hlt, rfl⟩ := fetchRead_eq_some hf
  simp only [Tuple.step, Tuple.ofState_pc, Tuple.ofState_m, hlt, if_true, Tuple.ofState_advancePc, joinBytes_toNat]

/-- A step is the tuple's step, in each of the three things a step can do. -/
theorem step_ofState (s : State) : ∃ u r, step s = .next (u.record r) ∧ u.history = s.history ∧
    (Tuple.ofState u, r) = Tuple.step s.stackDepth (Tuple.ofState s) := by
  obtain ⟨hf, hs⟩ | ⟨w, f, hf, hd, hs⟩ | ⟨w, i, hf, hd, hs⟩ := step_cases s
  case inl => exact ⟨_, _, hs, rfl, (Tuple.step_of_fetchRead_none hf).symm⟩
  case inr.inl =>
    obtain ⟨rfl, hill⟩ := decode_eq_error hd
    exact ⟨_, _, hs, rfl, ((Tuple.step_of_fetchRead_some hf).trans (Tuple.execute_illegal hill)).symm⟩
  case inr.inr =>
    obtain ⟨u, r, hx, he⟩ := exec_cases i s.advancePc
    exact ⟨u, r, hs.trans hx, he.history_eq,
      (he.ofState_eq (wordOf_of_decode hd)).trans (Tuple.step_of_fetchRead_some hf).symm⟩

/-- Settles O40: the simulation of a step; the depth by what every step keeps. -/
theorem stepRefinesTheTuple : Obligations.StepRefinesTheTuple := by
  intro s
  obtain ⟨u, r, hs, hhist, hstep⟩ := step_ofState s
  exact ⟨_, r, hs, congrArg (r :: ·) hhist, step_stackDepth hs, hstep⟩

/-- Settles O41: `pc` is written outright, and each address reads what the Load covers or what it held. -/
theorem loadRefinesTheTuple : Obligations.LoadRefinesTheTuple := by
  intro bs s hwf hlen
  have h := load_of_le s hlen
  refine ⟨_, h, ?_⟩
  have hm : (Tuple.ofState ((s.setMem (s.mem.writeBytes 0x200 bs)).setPc 0x200#16)).m =
      fun a => ((loadCovers bs a).map BitVec.toNat).getD ((Tuple.ofState s).m a) := by
    funext a
    rw [Tuple.ofState_m, Tuple.ofState_m, read_load hwf h, Option.getD_map]
  rw [Tuple.load, ← hm]
  rfl

end Sys2Proof.Machine
end
